-- ==== Sys2Proof/Word.lean ====
section
/-! DEFINITION. The word types of the machine (spec/00_scope.md R7, R9) and the six overlapping
fields of an opcode (spec/30_encoding.md R71). Every quantity is unsigned. -/

namespace Sys2Proof

/-- An unsigned 8-bit value `u8` (R9): a general register, a timer, a byte of memory. -/
abbrev Byte := BitVec 8

/-- An unsigned 16-bit value `u16` (R9): `I`, `pc`, a stack entry, an opcode. -/
abbrev Word := BitVec 16

/-- A general register number, 0 to 15 (R20): any value the 4-bit fields `x` and `y` can hold. -/
abbrev Reg := Fin 16

/-- A key index, 0 to 15 (R29, R231). -/
abbrev KeyIx := Fin 16

/-- A framebuffer cell index `y * 64 + x`, 0 to 2047 (R28). -/
abbrev CellIx := Fin 2048

/-- The framebuffer (R28): 32 rows, row 0 at the top.  In a row, bit `x` is the cell of column `x`,
column 0 at the left edge, so that cell `fb[y * 64 + x]` is bit `x` of row `y`. -/
abbrev Framebuffer := Vector (BitVec 64) 32

/-- A ROM image: raw bytes (R55, R252). -/
abbrev Rom := List Byte

/-- The flag register VF is register 0xF (R21). -/
abbrev vf : Reg := 15

/-- The six fields of an opcode, all produced for every opcode; they overlap (R71). -/
structure Fields where
  group : BitVec 4
  x     : BitVec 4
  y     : BitVec 4
  n     : BitVec 4
  nn    : BitVec 8
  nnn   : BitVec 12
  deriving DecidableEq, Repr

end Sys2Proof
end

