-- ==== Sys2Proof/Config.lean ====
section
/-! DEFINITION. What is fixed for the machine: the sizes of spec/00_scope.md R7, the kinds of the
open parameters of R8, the transactions of the agents, and the two free values, the random byte of
Cxnn (R144) and the order of the transactions (R100).  The VALUES this model takes for the parameters of R8 stand in Sys2Proof/Machine/Params.lean, where a repair may
mend them. -/

namespace Sys2Proof

/-- The transactions by which the machine advances (spec/40_execution_step.md R90). -/
inductive Transaction where
  /-- the instruction engine's `Step` -/
  | engine
  /-- the timer scheduler's `Tick` -/
  | tick
  /-- the host's `SetKey(k, pressed)` -/
  | setKey (k : KeyIx) (pressed : Bool)
  /-- the host reads the framebuffer -/
  | snapshot
  /-- the host reads `ST > 0` -/
  | readSound
  /-- the host's `Reset(rom)` -/
  | reset (rom : Rom)
  deriving DecidableEq, Repr, Inhabited

end Sys2Proof

namespace Sys2Proof.Config

/-- `MEM_SIZE` (R7). -/
abbrev memSize : Nat := 4096

/-- `STACK_DEPTH` (R7). -/
abbrev stackDepth : Nat := 16

/-- `PROG_BASE` (R7): the ROM image and the first instruction stand here. -/
abbrev progBase : Nat := 0x200

/-- `PC_MIN` (R7). -/
abbrev pcMin : Nat := 0x200

/-- `PC_MAX` (R7). -/
abbrev pcMax : Nat := 0xFFE

/-- `ROM_MAX` (R7; spec/90_conflicts.md C1). -/
abbrev romMax : Nat := 3584

/-- `FONT_GLYPH_BYTES` (R7). -/
abbrev fontGlyphBytes : Nat := 5

/-- `FB_W`, the screen's width (R7). -/
abbrev fbW : Nat := 64

/-- `FB_H`, the screen's height (R7). -/
abbrev fbH : Nat := 32

/-- `MEM_OOR_POLICY` (R8): what a data access at address 4096 or above does. -/
inductive MemOorPolicy where
  | fault   -- it raises MEM_OUT_OF_RANGE
  | wrap    -- the address is taken modulo 4096
  deriving DecidableEq, Repr

/-- `VF_ALIAS_POLICY` (R8, R132): which write stands in VF when an instruction writes both `V[x]`
and VF and `x = 0xF`. -/
inductive VfAliasPolicy where
  | listedOrder   -- the later of the two writes as the document lists them
  | flagWins      -- the flag
  | resultWins    -- the result
  deriving DecidableEq, Repr

/-- `RANDOM` (R8): the byte of the `k`-th execution of Cxnn, a free draw (R144).  It has no body, so
nothing can be proved about its value; assumption log 1. -/
opaque drawByte : Nat → Byte

/-- `INSTR_PER_TICK` (R8), left open (R100): the `k`-th transaction of the order in which the agents'
transactions happen.  It has no body, so every order, endless ones too, is one it may be;
assumption log 2. -/
opaque scheduled : Nat → Transaction

end Sys2Proof.Config
end

