-- ==== Sys2Proof/Machine/Params.lean ====
section
/-! DEFINITION. The values this model takes for the parameters of spec/00_scope.md R8.  They stand
under Machine/ so that a repair may mend a value.  `INSTR_PER_TICK` and `RANDOM` are no values
here: they are the free values `Config.scheduled` and `Config.drawByte`. -/

namespace Sys2Proof.Machine.Params
open Sys2Proof.Config

/-- `MEM_OOR_POLICY` (R8, R57): `fault`, spec/92_eei_decisions.md D4; assumption log 3. -/
def memOorPolicy : MemOorPolicy := .fault

/-- `VF_ALIAS_POLICY` (R8, R132): `listed_order`, D7; assumption log 4. -/
def vfAliasPolicy : VfAliasPolicy := .listedOrder

/-- `FONT_BASE` (R8, R53): 0x000, D5; assumption log 6. -/
def fontBase : Nat := 0x000

/-- `FONT` (R8, R54): the 80 bytes, glyph 0 first; general knowledge, not in the source (G1);
assumption log 6. -/
def font : List Byte :=
  [0xF0, 0x90, 0x90, 0x90, 0xF0] ++
  [0x20, 0x60, 0x20, 0x20, 0x70] ++
  [0xF0, 0x10, 0xF0, 0x80, 0xF0] ++
  [0xF0, 0x10, 0xF0, 0x10, 0xF0] ++
  [0x90, 0x90, 0xF0, 0x10, 0x10] ++
  [0xF0, 0x80, 0xF0, 0x10, 0xF0] ++
  [0xF0, 0x80, 0xF0, 0x90, 0xF0] ++
  [0xF0, 0x10, 0x20, 0x40, 0x40] ++
  [0xF0, 0x90, 0xF0, 0x90, 0xF0] ++
  [0xF0, 0x90, 0xF0, 0x10, 0xF0] ++
  [0xF0, 0x90, 0xF0, 0x90, 0x90] ++
  [0xE0, 0x90, 0xE0, 0x90, 0xE0] ++
  [0xF0, 0x80, 0x80, 0x80, 0xF0] ++
  [0xE0, 0x90, 0x90, 0x90, 0xE0] ++
  [0xF0, 0x80, 0xF0, 0x80, 0xF0] ++
  [0xF0, 0x80, 0xF0, 0x80, 0x80]

end Sys2Proof.Machine.Params
end

