-- ==== Sys2Proof/Syntax.lean ====
section
/-! DEFINITION. The instructions: one constructor for each of the 34 rows of spec/opcode_table.json
(spec/30_encoding.md R74), with the fields the row names (R71, R72). -/

namespace Sys2Proof

/-- The instruction set (R74).  `x`, `y` are register numbers, `nn` an 8-bit immediate, `nnn` a
12-bit address, `n` a 4-bit sprite height; all unsigned (R72).  SHR and SHL keep the field `y` they
ignore (R75), so that an instruction determines its word. -/
inductive Instr where
  /-- `00E0` CLS -/
  | cls
  /-- `00EE` RET -/
  | ret
  /-- `1nnn` JP -/
  | jp (nnn : BitVec 12)
  /-- `2nnn` CALL -/
  | call (nnn : BitVec 12)
  /-- `3xnn` SE_IMM -/
  | seImm (x : Reg) (nn : Byte)
  /-- `4xnn` SNE_IMM -/
  | sneImm (x : Reg) (nn : Byte)
  /-- `5xy0` SE_REG -/
  | seReg (x y : Reg)
  /-- `6xnn` LD_IMM -/
  | ldImm (x : Reg) (nn : Byte)
  /-- `7xnn` ADD_IMM -/
  | addImm (x : Reg) (nn : Byte)
  /-- `8xy0` LD_REG -/
  | ldReg (x y : Reg)
  /-- `8xy1` OR -/
  | orReg (x y : Reg)
  /-- `8xy2` AND -/
  | andReg (x y : Reg)
  /-- `8xy3` XOR -/
  | xorReg (x y : Reg)
  /-- `8xy4` ADD_REG -/
  | addReg (x y : Reg)
  /-- `8xy5` SUB -/
  | sub (x y : Reg)
  /-- `8xy6` SHR; `y` is ignored -/
  | shr (x y : Reg)
  /-- `8xy7` SUBN -/
  | subn (x y : Reg)
  /-- `8xyE` SHL; `y` is ignored -/
  | shl (x y : Reg)
  /-- `9xy0` SNE_REG -/
  | sneReg (x y : Reg)
  /-- `Annn` LD_INDEX -/
  | ldIndex (nnn : BitVec 12)
  /-- `Bnnn` JP_V0 -/
  | jpV0 (nnn : BitVec 12)
  /-- `Cxnn` RND -/
  | rnd (x : Reg) (nn : Byte)
  /-- `Dxyn` DRW -/
  | drw (x y : Reg) (n : BitVec 4)
  /-- `Ex9E` SKP -/
  | skp (x : Reg)
  /-- `ExA1` SKNP -/
  | sknp (x : Reg)
  /-- `Fx07` LD_FROM_DT -/
  | ldFromDt (x : Reg)
  /-- `Fx0A` LD_KEY -/
  | ldKey (x : Reg)
  /-- `Fx15` LD_DT -/
  | ldDt (x : Reg)
  /-- `Fx18` LD_ST -/
  | ldSt (x : Reg)
  /-- `Fx1E` ADD_INDEX -/
  | addIndex (x : Reg)
  /-- `Fx29` LD_FONT -/
  | ldFont (x : Reg)
  /-- `Fx33` BCD -/
  | bcd (x : Reg)
  /-- `Fx55` STORE_REGS -/
  | storeRegs (x : Reg)
  /-- `Fx65` LOAD_REGS -/
  | loadRegs (x : Reg)
  deriving DecidableEq, Repr

end Sys2Proof
end

