-- ==== Sys2Proof/Machine/State.lean ====
section
/-! DEFINITION. The state of the machine (spec/10_state.md), plain data, and its value after reset
(R36).  INVENTORY.md lists every field with the rule that names it. -/

namespace Sys2Proof.Machine

/-- The synchronous faults (spec/60_exceptions.md R210). -/
inductive FaultCause where
  | invalidInstruction
  | stackOverflow
  | stackUnderflow
  | pcInvalid
  | memOutOfRange
  deriving DecidableEq, Repr

/-- The record a fault leaves (R34): its cause, `info`, the `pc` of the step that faulted and the
fetched opcode (0 when nothing was fetched). -/
structure FaultRecord where
  cause : FaultCause
  info  : Word
  fpc   : Word
  fop   : Word
  deriving DecidableEq, Repr

/-- The run state (R33). -/
inductive RunState where
  /-- the instruction step is enabled -/
  | running
  /-- an Fx0A with `x = r` waits for a key -/
  | waitKey (r : Reg)
  /-- the fault state; only a reset leaves it -/
  | faulted (rec : FaultRecord)
  deriving DecidableEq, Repr

/-- Memory (R30, R50): the bytes that differ from what an unlisted address reads as, by rising
address.  `Memory.wf` in Machine/Ops.lean is the canonical form. -/
abbrev Memory := List Host.Cell

/-- The whole state. -/
structure State where
  /-- `V[0]` to `V[15]` (R20); `V[15]` is the flag register VF (R21) -/
  v : Vector Byte 16
  /-- the index register `I` (R22) -/
  i : Word
  /-- the program counter (R23) -/
  pc : Word
  /-- the return stack's entries (R25) -/
  stack : Vector Word 16
  /-- the stack's depth, 0 to 16 (R25) -/
  sp : Fin 17
  /-- the delay timer `DT` (R27) -/
  dt : Byte
  /-- the sound timer `ST` (R27) -/
  st : Byte
  /-- the framebuffer (R28) -/
  fb : Framebuffer
  /-- the key latch, true for pressed (R29) -/
  key : Vector Bool 16
  /-- memory (R30) -/
  mem : Memory
  /-- the run state, with the fault record (R33, R34) -/
  run : RunState
  /-- the `load_error` output: the result of the latest `Reset` (R230, R253); assumption log 5 -/
  loadError : Bool
  /-- the MODEL'S own: how many random bytes have been drawn (R144); assumption log 1 -/
  draws : Nat
  /-- the MODEL'S own: how many transactions of the open order `Config.scheduled` have happened
  (R100); assumption log 2 -/
  turns : Nat
  /-- the MODEL'S own: transactions known to come before the open order goes on, the first first; a
  load of a program and a chosen order are written so; assumption log 2 -/
  agenda : List Transaction
  deriving DecidableEq, Repr

/-- Reasons for which a step of this model stops with a fault: none.  Every fault of R210 is a NEXT
state in which `run` is `faulted` (R212), so this type has no constructor. -/
inductive Fault where
  deriving DecidableEq, Repr

/-- Reasons for which a step has no meaning. -/
inductive Refusal where
  /-- raised by an arm of `exec` whose instruction has no meaning yet; no arm raises it now; safe -/
  | notModelled (mnemonic : String)
  deriving DecidableEq, Repr

/-- The state after `Reset` of an empty image (R36, R250): memory reads as its reset contents
everywhere, so nothing is listed. -/
def State.reset : State where
  v := Vector.replicate 16 0
  i := 0
  pc := 0x200
  stack := Vector.replicate 16 0
  sp := 0
  dt := 0
  st := 0
  fb := Vector.replicate 32 0
  key := Vector.replicate 16 false
  mem := []
  run := .running
  loadError := false
  draws := 0
  turns := 0
  agenda := []

end Sys2Proof.Machine
end

