-- ==== Sys2Proof/Machine/Ops.lean ====
section
/-! DEFINITION. The named operations over memory, registers, the stack, the screen and the run
state, and taking a fault.  Each instruction's meaning is written over these. -/

namespace Sys2Proof.Machine

/-- What an instruction or a step answers. -/
abbrev Result := Host.Outcome State Fault Refusal

/-! ## Memory -/

/-- The reset contents of a byte outside the ROM image (R36, R52): the font at `FONT_BASE`, 0
elsewhere.  This is what an address that memory does not list reads as. -/
def initByte (a : Nat) : Byte :=
  if Params.fontBase ≤ a then Params.font.getD (a - Params.fontBase) 0 else 0

/-- The byte at an address: `mem[a]` of R10. -/
def Memory.read : Memory → Nat → Byte
  | [], a => initByte a
  | (k, b) :: rest, a => if k = a then b else Memory.read rest a

/-- Memory without any entry for an address. -/
def Memory.erase : Memory → Nat → Memory
  | [], _ => []
  | (k, b) :: rest, a => if k = a then Memory.erase rest a else (k, b) :: Memory.erase rest a

/-- Memory with an entry put before the first that lies higher. -/
def Memory.insert : Memory → Nat → Byte → Memory
  | [], a, b => [(a, b)]
  | (k, c) :: rest, a, b => if a < k then (a, b) :: (k, c) :: rest else (k, c) :: Memory.insert rest a b

/-- `mem[a] <- b` of R10, keeping the canonical form: a byte equal to the reset contents is not
listed. -/
def Memory.write (m : Memory) (a : Nat) (b : Byte) : Memory :=
  if b = initByte a then Memory.erase m a else Memory.insert (Memory.erase m a) a b

/-- Single-byte writes in the order given (R51): each byte to the address beside it. -/
def Memory.writeAll : Memory → List Nat → List Byte → Memory
  | m, a :: as, b :: bs => Memory.writeAll (Memory.write m a b) as bs
  | m, _, _ => m

/-- The canonical form, from a lower bound on the first address. -/
def Memory.wfFrom : Nat → Memory → Bool
  | _, [] => true
  | lo, (k, b) :: rest =>
    decide (lo ≤ k) && decide (k < Config.memSize) && (b != initByte k) && Memory.wfFrom (k + 1) rest

/-- The canonical form of memory: addresses strictly rising, all below 4096 (R30), and no entry
equal to what an unlisted address reads as.  The form is the model's own (assumption log 22). -/
def Memory.wf (m : Memory) : Bool := Memory.wfFrom 0 m

/-! ## Registers and the scalar state -/

/-- `V[r]` (R10). -/
def State.getV (s : State) (r : Reg) : Byte := s.v.get r

/-- `V[r] <- b` (R10). -/
def State.setV (s : State) (r : Reg) (b : Byte) : State := { s with v := s.v.set r.val b }

/-- `I <- w`. -/
def State.setI (s : State) (w : Word) : State := { s with i := w }

/-- `pc <- w`; no write of `pc` is checked (R23, R94). -/
def State.setPc (s : State) (w : Word) : State := { s with pc := w }

/-- `DT <- b`. -/
def State.setDt (s : State) (b : Byte) : State := { s with dt := b }

/-- `ST <- b`. -/
def State.setSt (s : State) (b : Byte) : State := { s with st := b }

/-- The framebuffer replaced. -/
def State.setFb (s : State) (f : Framebuffer) : State := { s with fb := f }

/-- Memory replaced. -/
def State.setMem (s : State) (m : Memory) : State := { s with mem := m }

/-- `run <- r`. -/
def State.setRun (s : State) (r : RunState) : State := { s with run := r }

/-- `key[k]` (R29). -/
def State.getKey (s : State) (k : KeyIx) : Bool := s.key.get k

/-- `key[k] <- b`. -/
def State.setKeyBit (s : State) (k : KeyIx) (b : Bool) : State := { s with key := s.key.set k.val b }

/-- The agenda replaced. -/
def State.setAgenda (s : State) (l : List Transaction) : State := { s with agenda := l }

/-- One more transaction of the open order (R100). -/
def State.countTurn (s : State) : State := { s with turns := s.turns + 1 }

/-- One more random byte drawn (R144). -/
def State.countDraw (s : State) : State := { s with draws := s.draws + 1 }

/-- `V[0]`, `V[1]`, ... taken from a list of bytes, from register `r` on (R156). -/
def State.setVs (s : State) (r : Nat) : List Byte → State
  | [] => s
  | b :: bs => State.setVs { s with v := s.v.setIfInBounds r b } (r + 1) bs

/-! ## The program counter -/

/-- `pc <- a + 2` (R97), on 16 bits. -/
def State.advance (s : State) : State := s.setPc (s.pc + 2)

/-- A conditional skip (R97): `a + 4` if the condition holds, else `a + 2`. -/
def State.skipIf (s : State) (cond : Bool) : State := s.setPc (if cond then s.pc + 4 else s.pc + 2)

/-! ## The return stack -/

/-- `Push(w)` of R26; none when the stack is full. -/
def State.push (s : State) (w : Word) : Option State :=
  if h : s.sp.val < 16 then
    some { s with stack := s.stack.set s.sp.val w, sp := ⟨s.sp.val + 1, by omega⟩ }
  else none

/-- `Pop()` of R26: the top entry and the state without it; none when the stack is empty.  The
entry itself stays where it was, dead and unobservable (R25). -/
def State.pop (s : State) : Option (Word × State) :=
  if h : 0 < s.sp.val then
    some (s.stack[s.sp.val - 1]'(by omega), { s with sp := ⟨s.sp.val - 1, by omega⟩ })
  else none

/-! ## The framebuffer -/

/-- `fb[c]` (R10, R28). -/
def Framebuffer.get (f : Framebuffer) (c : CellIx) : Bool :=
  (f[c.val / 64]'(by omega)).getLsbD (c.val % 64)

/-- `fb[c] <- not fb[c]` (R172). -/
def Framebuffer.flip (f : Framebuffer) (c : CellIx) : Framebuffer :=
  f.set (c.val / 64) (f[c.val / 64]'(by omega) ^^^ BitVec.twoPow 64 (c.val % 64)) (by omega)

/-- `fb[c]` of the state. -/
def State.getFb (s : State) (c : CellIx) : Bool := Framebuffer.get s.fb c

/-- Every cell false (R173). -/
def Framebuffer.blank : Framebuffer := Vector.replicate 32 0

/-! ## Taking a fault, and what leaves the fault state -/

/-- `raise Fault(cause, info)` in a step at the present `pc` with fetched opcode `op` (R10, R34,
R98, R212): `run` takes the record and nothing else changes.  A meaning raises before its first
write, so there is nothing to discard.  There is no return from a fault (R215): only the
transaction `Reset` (`State.resetWith` in Machine/HostPorts.lean) leaves the fault state. -/
def raiseFault (cause : FaultCause) (info op : Word) (s : State) : Result :=
  .next (s.setRun (.faulted ⟨cause, info, s.pc, op⟩))

end Sys2Proof.Machine
end

