-- ==== Sys2Proof/Machine/Flags.lean ====
section
/-! DEFINITION. The flag computations (spec/42_alu.md R131, spec/10_state.md R21) and the two writes
of an instruction that writes a result and VF (R132). -/

namespace Sys2Proof.Machine
open Sys2Proof.Config

/-- A flag's value in VF: 1 or 0 (R21). -/
def flagByte (b : Bool) : Byte := if b then 1 else 0

/-- The carry of an addition: 1 when the unclamped sum exceeds 255 (R139). -/
def carryFlag (p q : Byte) : Byte := flagByte (decide (255 < p.toNat + q.toNat))

/-- The flag of `p - q`: 1 when `p >= q`, no borrow (R131, R140). -/
def noBorrowFlag (p q : Byte) : Byte := flagByte (decide (q.toNat ≤ p.toNat))

/-- The bit a right shift moves out, `p[0]` (R141). -/
def lowBitFlag (p : Byte) : Byte := flagByte (p.getLsbD 0)

/-- The bit a left shift moves out, `p[7]` (R143). -/
def highBitFlag (p : Byte) : Byte := flagByte (p.getLsbD 7)

/-- The order in which an instruction's two writes are applied. -/
inductive WriteOrder where
  | resultThenFlag
  | flagThenResult
  deriving DecidableEq, Repr

/-- The order a policy applies to an instruction the document lists in the order `listed` (R132). -/
def writeOrder (p : VfAliasPolicy) (listed : WriteOrder) : WriteOrder :=
  match p with
  | .listedOrder => listed
  | .flagWins => .resultThenFlag
  | .resultWins => .flagThenResult

/-- Both writes: `V[x] <- result` and `V[0xF] <- flag`; when `x = 0xF` the later stands (R11, R132). -/
def State.setVAndFlag (s : State) (o : WriteOrder) (x : Reg) (result flag : Byte) : State :=
  match o with
  | .resultThenFlag => (s.setV x result).setV vf flag
  | .flagThenResult => (s.setV vf flag).setV x result

end Sys2Proof.Machine
end

