-- ==== Sys2Proof/Machine/Operands.lean ====
section
/-! DEFINITION. The operand forms: a 12-bit address widened (spec/30_encoding.md R72), the key and
the glyph a register selects, the data addresses `I + k` (spec/43_index_memory.md R150) under both
policies of `MEM_OOR_POLICY`, decimal digits, and the cells and bits of a sprite
(spec/44_display.md R171, R172). -/

namespace Sys2Proof.Machine
open Sys2Proof.Config

/-- `zext_16(nnn)` (R10, R72). -/
def addrOperand (nnn : BitVec 12) : Word := nnn.zeroExtend 16

/-- The key `V[x] & 0xF` (R190). -/
def keyOf (b : Byte) : KeyIx := ⟨(b &&& 0xF).toNat % 16, Nat.mod_lt _ (by decide)⟩

/-- `FONT_BASE + 5 * (V[x] & 0xF)` (R153). -/
def glyphAddr (b : Byte) : Word :=
  BitVec.ofNat 16 (Params.fontBase + fontGlyphBytes * (b &&& 0xF).toNat)

/-- `DataAddr(addr)` of R10: none where it raises MEM_OUT_OF_RANGE. -/
def dataAddr (p : MemOorPolicy) (addr : Nat) : Option Nat :=
  if addr < memSize then some addr
  else match p with
    | .fault => none
    | .wrap => some (addr % memSize)

/-- `DataAddr(addr)`, `DataAddr(addr + 1)`, ... for `count` bytes in ascending order (R51, R150);
none if any of them raises, for a fault discards every write of the step (R57). -/
def dataAddrs (p : MemOorPolicy) (addr : Nat) : Nat → Option (List Nat)
  | 0 => some []
  | count + 1 =>
    match dataAddr p addr, dataAddrs p (addr + 1) count with
    | some a, some as => some (a :: as)
    | _, _ => none

/-- The `info` of MEM_OUT_OF_RANGE: the first offending address, `max(I, 4096)` (R57, R210;
spec/90_conflicts.md C12). -/
def outOfRangeInfo (i : Word) : Word := if i.toNat < memSize then 0x1000 else i

/-- An instruction that reaches `count` bytes from `I` on: all its addresses are formed first, and
where one is out of range the instruction raises MEM_OUT_OF_RANGE with no effect (R57, R98);
otherwise it takes effect on the addresses and `pc` goes to the next instruction. -/
def withData (p : MemOorPolicy) (count : Nat) (op : Word) (s : State) (effect : List Nat → State) :
    Result :=
  match dataAddrs p s.i.toNat count with
  | some as => .next (effect as).advance
  | none => raiseFault .memOutOfRange (outOfRangeInfo s.i) op s

/-- The bytes at a list of addresses, in its order. -/
def readAll (m : Memory) (as : List Nat) : List Byte := as.map (Memory.read m)

/-- `V[0]` to `V[x]` in ascending order (R155). -/
def regsUpTo (s : State) (x : Reg) : List Byte := s.v.toList.take (x.val + 1)

/-- Hundreds, tens and ones of a byte, each as its digit's value (R154). -/
def bcdDigits (b : Byte) : List Byte :=
  [BitVec.ofNat 8 (b.toNat / 100), BitVec.ofNat 8 (b.toNat / 10 % 10), BitVec.ofNat 8 (b.toNat % 10)]

/-- The cell of column `c` and row `r` of a sprite whose origin is `(ox, oy)` (R172): the sums are
taken modulo the screen's width and height, one pixel at a time. -/
def spriteCell (ox oy : Byte) (r c : Nat) : CellIx :=
  ⟨(oy.toNat + r) % fbH * 64 + (ox.toNat + c) % fbW, by
    have h1 : (oy.toNat + r) % fbH < 32 := Nat.mod_lt _ (by decide)
    have h2 : (ox.toNat + c) % fbW < 64 := Nat.mod_lt _ (by decide)
    omega⟩

/-- Column `c` of a sprite row is bit `7 - c` of its byte (R171). -/
def spriteBit (b : Byte) (c : Nat) : Bool := b.getLsbD (7 - c)

end Sys2Proof.Machine
end

