-- ==== Sys2Proof/Machine/Alu.lean ====
section
/-! DEFINITION. Register load, arithmetic, logic and random instructions (spec/42_alu.md).  None can
fault; each ends with `pc <- a + 2`.  The five that write a result and VF are given for every
`VF_ALIAS_POLICY` and run under the one of Machine/Params.lean (R132). -/

namespace Sys2Proof.Machine
open Sys2Proof.Config

/-- `6xnn` LD_IMM (R133). -/
def execLdImm (x : Reg) (nn : Byte) (s : State) : Result := .next (s.setV x nn).advance

/-- `7xnn` ADD_IMM (R134): modulo 256, no flag. -/
def execAddImm (x : Reg) (nn : Byte) (s : State) : Result := .next (s.setV x (s.getV x + nn)).advance

/-- `8xy0` LD_REG (R135). -/
def execLdReg (x y : Reg) (s : State) : Result := .next (s.setV x (s.getV y)).advance

/-- `8xy1` OR (R136). -/
def execOrReg (x y : Reg) (s : State) : Result := .next (s.setV x (s.getV x ||| s.getV y)).advance

/-- `8xy2` AND (R137). -/
def execAndReg (x y : Reg) (s : State) : Result := .next (s.setV x (s.getV x &&& s.getV y)).advance

/-- `8xy3` XOR (R138). -/
def execXorReg (x y : Reg) (s : State) : Result := .next (s.setV x (s.getV x ^^^ s.getV y)).advance

/-- `8xy4` ADD_REG (R139): the document lists the result, then the flag. -/
def execAddRegUnder (p : VfAliasPolicy) (x y : Reg) (s : State) : Result :=
  .next (s.setVAndFlag (writeOrder p .resultThenFlag) x (s.getV x + s.getV y)
    (carryFlag (s.getV x) (s.getV y))).advance

/-- `8xy4` ADD_REG. -/
def execAddReg (x y : Reg) (s : State) : Result := execAddRegUnder Params.vfAliasPolicy x y s

/-- `8xy5` SUB (R140): the flag, then the result. -/
def execSubUnder (p : VfAliasPolicy) (x y : Reg) (s : State) : Result :=
  .next (s.setVAndFlag (writeOrder p .flagThenResult) x (s.getV x - s.getV y)
    (noBorrowFlag (s.getV x) (s.getV y))).advance

/-- `8xy5` SUB. -/
def execSub (x y : Reg) (s : State) : Result := execSubUnder Params.vfAliasPolicy x y s

/-- `8xy6` SHR (R141): `V[x]` is shifted, not `V[y]` (R75); the flag, then the result. -/
def execShrUnder (p : VfAliasPolicy) (x _y : Reg) (s : State) : Result :=
  .next (s.setVAndFlag (writeOrder p .flagThenResult) x (s.getV x >>> 1)
    (lowBitFlag (s.getV x))).advance

/-- `8xy6` SHR. -/
def execShr (x y : Reg) (s : State) : Result := execShrUnder Params.vfAliasPolicy x y s

/-- `8xy7` SUBN (R142): the minuend is `V[y]`, the destination `V[x]`; the flag, then the result. -/
def execSubnUnder (p : VfAliasPolicy) (x y : Reg) (s : State) : Result :=
  .next (s.setVAndFlag (writeOrder p .flagThenResult) x (s.getV y - s.getV x)
    (noBorrowFlag (s.getV y) (s.getV x))).advance

/-- `8xy7` SUBN. -/
def execSubn (x y : Reg) (s : State) : Result := execSubnUnder Params.vfAliasPolicy x y s

/-- `8xyE` SHL (R143): `V[x]` is shifted, not `V[y]` (R75); the flag, then the result. -/
def execShlUnder (p : VfAliasPolicy) (x _y : Reg) (s : State) : Result :=
  .next (s.setVAndFlag (writeOrder p .flagThenResult) x (s.getV x <<< 1)
    (highBitFlag (s.getV x))).advance

/-- `8xyE` SHL. -/
def execShl (x y : Reg) (s : State) : Result := execShlUnder Params.vfAliasPolicy x y s

/-- `Cxnn` RND (R144): the byte drawn is the free value `Config.drawByte`, a fresh one at every
execution (assumption log 1). -/
def execRnd (x : Reg) (nn : Byte) (s : State) : Result :=
  .next (s.setV x (drawByte s.draws &&& nn)).countDraw.advance

end Sys2Proof.Machine
end

