-- ==== Sys2Proof/Decode.lean ====
section
/-! DEFINITION. The decoder, total on any word and any bytes, which rejects a word by the space of
spec/30_encoding.md R77 it lies in; the encoder, written from the same encodings (R74); the opcode
table of R74 as mask and pattern rows; and the notation of R79. -/

namespace Sys2Proof

/-! ## The fields of an opcode -/

/-- The decoder of R71: six fields from the sixteen bits, for every opcode. -/
def fieldsOf (op : Word) : Fields where
  group := op.extractLsb' 12 4
  x     := op.extractLsb' 8 4
  y     := op.extractLsb' 4 4
  n     := op.extractLsb' 0 4
  nn    := op.extractLsb' 0 8
  nnn   := op.extractLsb' 0 12

/-- The register a 4-bit field names, used as it stands (R72). -/
def regOf (b : BitVec 4) : Reg := ⟨b.toNat, b.isLt⟩

/-- The 4-bit field that names a register. -/
def regBits (r : Reg) : BitVec 4 := BitVec.ofFin r

/-! ## Decoding -/

/-- Why a word is no instruction: the rows of R77's table of invalid words. -/
inductive Reject where
  /-- group 0 other than 0x00E0 and 0x00EE -/
  | group0
  /-- `5xyN`, N not 0 -/
  | group5
  /-- `8xyN`, N one of 8, 9, A, B, C, D, F -/
  | group8
  /-- `9xyN`, N not 0 -/
  | group9
  /-- `ExNN`, NN neither 9E nor A1 -/
  | groupE
  /-- `FxNN`, NN none of 07, 0A, 15, 18, 1E, 29, 33, 55, 65 -/
  | groupF
  /-- fewer than the two bytes of an instruction (R70); no step of the machine meets this -/
  | tooShort
  deriving DecidableEq, Repr

/-- Group 0 is selected by the whole word (R73). -/
def dispatch0 (op : Word) : Except Reject Instr :=
  if op = 0x00E0 then .ok .cls else if op = 0x00EE then .ok .ret else .error .group0

/-- Group 8 is selected by `n` (R73; spec/90_conflicts.md C3). -/
def dispatch8 (x y : Reg) (n : BitVec 4) : Except Reject Instr :=
  if n = 0x0 then .ok (.ldReg x y)
  else if n = 0x1 then .ok (.orReg x y)
  else if n = 0x2 then .ok (.andReg x y)
  else if n = 0x3 then .ok (.xorReg x y)
  else if n = 0x4 then .ok (.addReg x y)
  else if n = 0x5 then .ok (.sub x y)
  else if n = 0x6 then .ok (.shr x y)
  else if n = 0x7 then .ok (.subn x y)
  else if n = 0xE then .ok (.shl x y)
  else .error .group8

/-- Group E is selected by `nn` (R73). -/
def dispatchE (x : Reg) (nn : Byte) : Except Reject Instr :=
  if nn = 0x9E then .ok (.skp x) else if nn = 0xA1 then .ok (.sknp x) else .error .groupE

/-- Group F is selected by `nn` (R73). -/
def dispatchF (x : Reg) (nn : Byte) : Except Reject Instr :=
  if nn = 0x07 then .ok (.ldFromDt x)
  else if nn = 0x0A then .ok (.ldKey x)
  else if nn = 0x15 then .ok (.ldDt x)
  else if nn = 0x18 then .ok (.ldSt x)
  else if nn = 0x1E then .ok (.addIndex x)
  else if nn = 0x29 then .ok (.ldFont x)
  else if nn = 0x33 then .ok (.bcd x)
  else if nn = 0x55 then .ok (.storeRegs x)
  else if nn = 0x65 then .ok (.loadRegs x)
  else .error .groupF

/-- Dispatch by `group`, then by sub-group (R73, R96). -/
def dispatch (op : Word) (f : Fields) : Except Reject Instr :=
  if f.group = 0x0 then dispatch0 op
  else if f.group = 0x1 then .ok (.jp f.nnn)
  else if f.group = 0x2 then .ok (.call f.nnn)
  else if f.group = 0x3 then .ok (.seImm (regOf f.x) f.nn)
  else if f.group = 0x4 then .ok (.sneImm (regOf f.x) f.nn)
  else if f.group = 0x5 then (if f.n = 0x0 then .ok (.seReg (regOf f.x) (regOf f.y)) else .error .group5)
  else if f.group = 0x6 then .ok (.ldImm (regOf f.x) f.nn)
  else if f.group = 0x7 then .ok (.addImm (regOf f.x) f.nn)
  else if f.group = 0x8 then dispatch8 (regOf f.x) (regOf f.y) f.n
  else if f.group = 0x9 then (if f.n = 0x0 then .ok (.sneReg (regOf f.x) (regOf f.y)) else .error .group9)
  else if f.group = 0xA then .ok (.ldIndex f.nnn)
  else if f.group = 0xB then .ok (.jpV0 f.nnn)
  else if f.group = 0xC then .ok (.rnd (regOf f.x) f.nn)
  else if f.group = 0xD then .ok (.drw (regOf f.x) (regOf f.y) f.n)
  else if f.group = 0xE then dispatchE (regOf f.x) f.nn
  else dispatchF (regOf f.x) f.nn

/-- The instruction a word encodes, or the space of invalid words it lies in (R74, R76, R77). -/
def decode (op : Word) : Except Reject Instr := dispatch op (fieldsOf op)

/-- Decoding a byte sequence: two bytes, the high byte first (R56, R70), and the bytes after them. -/
def decodeBytes : List Byte → Except Reject (Instr × List Byte)
  | hi :: lo :: rest =>
    match decode (hi ++ lo) with
    | .ok i => .ok (i, rest)
    | .error r => .error r
  | _ => .error .tooShort

/-! ## Encoding -/

/-- A word from its four nibbles, `group` first (R71). -/
def wordOfNibbles (group x y n : BitVec 4) : Word := group ++ x ++ y ++ n

/-- A word of the shape `gxnn` (R71). -/
def wordOfByte (group x : BitVec 4) (nn : Byte) : Word := group ++ x ++ nn

/-- A word of the shape `gnnn` (R71). -/
def wordOfAddr (group : BitVec 4) (nnn : BitVec 12) : Word := group ++ nnn

/-- The word of an instruction, by the pattern column of R74. -/
def encode : Instr → Word
  | .cls => 0x00E0
  | .ret => 0x00EE
  | .jp nnn => wordOfAddr 0x1 nnn
  | .call nnn => wordOfAddr 0x2 nnn
  | .seImm x nn => wordOfByte 0x3 (regBits x) nn
  | .sneImm x nn => wordOfByte 0x4 (regBits x) nn
  | .seReg x y => wordOfNibbles 0x5 (regBits x) (regBits y) 0x0
  | .ldImm x nn => wordOfByte 0x6 (regBits x) nn
  | .addImm x nn => wordOfByte 0x7 (regBits x) nn
  | .ldReg x y => wordOfNibbles 0x8 (regBits x) (regBits y) 0x0
  | .orReg x y => wordOfNibbles 0x8 (regBits x) (regBits y) 0x1
  | .andReg x y => wordOfNibbles 0x8 (regBits x) (regBits y) 0x2
  | .xorReg x y => wordOfNibbles 0x8 (regBits x) (regBits y) 0x3
  | .addReg x y => wordOfNibbles 0x8 (regBits x) (regBits y) 0x4
  | .sub x y => wordOfNibbles 0x8 (regBits x) (regBits y) 0x5
  | .shr x y => wordOfNibbles 0x8 (regBits x) (regBits y) 0x6
  | .subn x y => wordOfNibbles 0x8 (regBits x) (regBits y) 0x7
  | .shl x y => wordOfNibbles 0x8 (regBits x) (regBits y) 0xE
  | .sneReg x y => wordOfNibbles 0x9 (regBits x) (regBits y) 0x0
  | .ldIndex nnn => wordOfAddr 0xA nnn
  | .jpV0 nnn => wordOfAddr 0xB nnn
  | .rnd x nn => wordOfByte 0xC (regBits x) nn
  | .drw x y n => wordOfNibbles 0xD (regBits x) (regBits y) n
  | .skp x => wordOfByte 0xE (regBits x) 0x9E
  | .sknp x => wordOfByte 0xE (regBits x) 0xA1
  | .ldFromDt x => wordOfByte 0xF (regBits x) 0x07
  | .ldKey x => wordOfByte 0xF (regBits x) 0x0A
  | .ldDt x => wordOfByte 0xF (regBits x) 0x15
  | .ldSt x => wordOfByte 0xF (regBits x) 0x18
  | .addIndex x => wordOfByte 0xF (regBits x) 0x1E
  | .ldFont x => wordOfByte 0xF (regBits x) 0x29
  | .bcd x => wordOfByte 0xF (regBits x) 0x33
  | .storeRegs x => wordOfByte 0xF (regBits x) 0x55
  | .loadRegs x => wordOfByte 0xF (regBits x) 0x65

/-! ## The host's numbering -/

/-- The instruction the decoder reads from an instruction whose bits, numbered as
spec/opcode_table.json numbers them, are `w`.  Every instruction is one 16-bit word (R70), so the
word's own bit 0 is the table's bit 0. -/
def decodeTableWord (nbits w : Nat) : Option Instr :=
  match decode (BitVec.ofNat 16 (w % 2 ^ nbits)) with
  | .ok i => some i
  | .error _ => none

/-! ## The opcode table of R74 -/

/-- A row of R74: a word `w` is the row's instruction if and only if `w &&& mask = pattern`. -/
structure OpcodeRow where
  mnemonic : String
  mask     : Word
  pattern  : Word
  deriving DecidableEq, Repr

/-- Whether a word is an instruction of the row (R74). -/
def OpcodeRow.covers (r : OpcodeRow) (w : Word) : Bool := w &&& r.mask == r.pattern

/-- The 34 rows of R74, in its order. -/
def opcodeTable : List OpcodeRow :=
  [ ⟨"CLS", 0xFFFF, 0x00E0⟩
  , ⟨"RET", 0xFFFF, 0x00EE⟩
  , ⟨"JP", 0xF000, 0x1000⟩
  , ⟨"CALL", 0xF000, 0x2000⟩
  , ⟨"SE_IMM", 0xF000, 0x3000⟩
  , ⟨"SNE_IMM", 0xF000, 0x4000⟩
  , ⟨"SE_REG", 0xF00F, 0x5000⟩
  , ⟨"LD_IMM", 0xF000, 0x6000⟩
  , ⟨"ADD_IMM", 0xF000, 0x7000⟩
  , ⟨"LD_REG", 0xF00F, 0x8000⟩
  , ⟨"OR", 0xF00F, 0x8001⟩
  , ⟨"AND", 0xF00F, 0x8002⟩ ] ++
  [ ⟨"XOR", 0xF00F, 0x8003⟩
  , ⟨"ADD_REG", 0xF00F, 0x8004⟩
  , ⟨"SUB", 0xF00F, 0x8005⟩
  , ⟨"SHR", 0xF00F, 0x8006⟩
  , ⟨"SUBN", 0xF00F, 0x8007⟩
  , ⟨"SHL", 0xF00F, 0x800E⟩
  , ⟨"SNE_REG", 0xF00F, 0x9000⟩
  , ⟨"LD_INDEX", 0xF000, 0xA000⟩
  , ⟨"JP_V0", 0xF000, 0xB000⟩
  , ⟨"RND", 0xF000, 0xC000⟩
  , ⟨"DRW", 0xF000, 0xD000⟩
  , ⟨"SKP", 0xF0FF, 0xE09E⟩ ] ++
  [ ⟨"SKNP", 0xF0FF, 0xE0A1⟩
  , ⟨"LD_FROM_DT", 0xF0FF, 0xF007⟩
  , ⟨"LD_KEY", 0xF0FF, 0xF00A⟩
  , ⟨"LD_DT", 0xF0FF, 0xF015⟩
  , ⟨"LD_ST", 0xF0FF, 0xF018⟩
  , ⟨"ADD_INDEX", 0xF0FF, 0xF01E⟩
  , ⟨"LD_FONT", 0xF0FF, 0xF029⟩
  , ⟨"BCD", 0xF0FF, 0xF033⟩
  , ⟨"STORE_REGS", 0xF0FF, 0xF055⟩
  , ⟨"LOAD_REGS", 0xF0FF, 0xF065⟩ ]

/-- The row of an instruction, by its unique mnemonic (R74, R79). -/
def Instr.mnemonic : Instr → String
  | .cls => "CLS"
  | .ret => "RET"
  | .jp _ => "JP"
  | .call _ => "CALL"
  | .seImm _ _ => "SE_IMM"
  | .sneImm _ _ => "SNE_IMM"
  | .seReg _ _ => "SE_REG"
  | .ldImm _ _ => "LD_IMM"
  | .addImm _ _ => "ADD_IMM"
  | .ldReg _ _ => "LD_REG"
  | .orReg _ _ => "OR"
  | .andReg _ _ => "AND"
  | .xorReg _ _ => "XOR"
  | .addReg _ _ => "ADD_REG"
  | .sub _ _ => "SUB"
  | .shr _ _ => "SHR"
  | .subn _ _ => "SUBN"
  | .shl _ _ => "SHL"
  | .sneReg _ _ => "SNE_REG"
  | .ldIndex _ => "LD_INDEX"
  | .jpV0 _ => "JP_V0"
  | .rnd _ _ => "RND"
  | .drw _ _ _ => "DRW"
  | .skp _ => "SKP"
  | .sknp _ => "SKNP"
  | .ldFromDt _ => "LD_FROM_DT"
  | .ldKey _ => "LD_KEY"
  | .ldDt _ => "LD_DT"
  | .ldSt _ => "LD_ST"
  | .addIndex _ => "ADD_INDEX"
  | .ldFont _ => "LD_FONT"
  | .bcd _ => "BCD"
  | .storeRegs _ => "STORE_REGS"
  | .loadRegs _ => "LOAD_REGS"

/-! ## The notation of R79 -/

/-- The digit of a value below 16. -/
def hexDigit (k : Nat) : Char := "0123456789ABCDEF".toList.getD k '?'

/-- `0x` and the given number of hexadecimal digits (R9). -/
def hexText (digits v : Nat) : String :=
  "0x" ++ String.ofList ((List.range digits).reverse.map fun k => hexDigit (v / 16 ^ k % 16))

/-- `V0` to `VF`. -/
def regText (r : Reg) : String := "V" ++ String.ofList [hexDigit r.val]

/-- The line an assembler of R79 writes for the instruction; R79 leaves the spelling of numbers
open, and this writes them in hexadecimal (assumption log 9).  SHR and SHL have no `y` there. -/
def Instr.asmText : Instr → String
  | .cls => "CLS"
  | .ret => "RET"
  | .jp nnn => "JP " ++ hexText 3 nnn.toNat
  | .call nnn => "CALL " ++ hexText 3 nnn.toNat
  | .seImm x nn => "SE " ++ regText x ++ ", " ++ hexText 2 nn.toNat
  | .sneImm x nn => "SNE " ++ regText x ++ ", " ++ hexText 2 nn.toNat
  | .seReg x y => "SE " ++ regText x ++ ", " ++ regText y
  | .ldImm x nn => "LD " ++ regText x ++ ", " ++ hexText 2 nn.toNat
  | .addImm x nn => "ADD " ++ regText x ++ ", " ++ hexText 2 nn.toNat
  | .ldReg x y => "LD " ++ regText x ++ ", " ++ regText y
  | .orReg x y => "OR " ++ regText x ++ ", " ++ regText y
  | .andReg x y => "AND " ++ regText x ++ ", " ++ regText y
  | .xorReg x y => "XOR " ++ regText x ++ ", " ++ regText y
  | .addReg x y => "ADD " ++ regText x ++ ", " ++ regText y
  | .sub x y => "SUB " ++ regText x ++ ", " ++ regText y
  | .shr x _ => "SHR " ++ regText x
  | .subn x y => "SUBN " ++ regText x ++ ", " ++ regText y
  | .shl x _ => "SHL " ++ regText x
  | .sneReg x y => "SNE " ++ regText x ++ ", " ++ regText y
  | .ldIndex nnn => "LD I, " ++ hexText 3 nnn.toNat
  | .jpV0 nnn => "JP V0, " ++ hexText 3 nnn.toNat
  | .rnd x nn => "RND " ++ regText x ++ ", " ++ hexText 2 nn.toNat
  | .drw x y n => "DRW " ++ regText x ++ ", " ++ regText y ++ ", " ++ hexText 1 n.toNat
  | .skp x => "SKP " ++ regText x
  | .sknp x => "SKNP " ++ regText x
  | .ldFromDt x => "LD " ++ regText x ++ ", DT"
  | .ldKey x => "LD " ++ regText x ++ ", K"
  | .ldDt x => "LD DT, " ++ regText x
  | .ldSt x => "LD ST, " ++ regText x
  | .addIndex x => "ADD I, " ++ regText x
  | .ldFont x => "LD F, " ++ regText x
  | .bcd x => "LD B, " ++ regText x
  | .storeRegs x => "LD [I], " ++ regText x
  | .loadRegs x => "LD " ++ regText x ++ ", [I]"

end Sys2Proof
end

