-- ==== Sys2Proof/Machine/ControlFlow.lean ====
section
/-! DEFINITION. Control transfer (spec/41_control_flow.md): RET, JP, CALL, JP_V0 and the four
register skips.  A target is written as it stands and checked at the next fetch (R118, R94). -/

namespace Sys2Proof.Machine

/-- `00EE` RET (R110). -/
def execRet (s : State) : Result :=
  match s.pop with
  | some (target, s') => .next (s'.setPc target)
  | none => raiseFault .stackUnderflow 0 (encode .ret) s

/-- `1nnn` JP (R111). -/
def execJp (nnn : BitVec 12) (s : State) : Result := .next (s.setPc (addrOperand nnn))

/-- `2nnn` CALL (R112). -/
def execCall (nnn : BitVec 12) (s : State) : Result :=
  match s.push (s.pc + 2) with
  | some s' => .next (s'.setPc (addrOperand nnn))
  | none => raiseFault .stackOverflow (s.pc + 2) (encode (.call nnn)) s

/-- `Bnnn` JP_V0 (R117). -/
def execJpV0 (nnn : BitVec 12) (s : State) : Result :=
  .next (s.setPc (addrOperand nnn + (s.getV 0).zeroExtend 16))

/-- `3xnn` SE_IMM (R113). -/
def execSeImm (x : Reg) (nn : Byte) (s : State) : Result := .next (s.skipIf (s.getV x == nn))

/-- `4xnn` SNE_IMM (R114). -/
def execSneImm (x : Reg) (nn : Byte) (s : State) : Result := .next (s.skipIf (s.getV x != nn))

/-- `5xy0` SE_REG (R115). -/
def execSeReg (x y : Reg) (s : State) : Result := .next (s.skipIf (s.getV x == s.getV y))

/-- `9xy0` SNE_REG (R116). -/
def execSneReg (x y : Reg) (s : State) : Result := .next (s.skipIf (s.getV x != s.getV y))

end Sys2Proof.Machine
end

