-- ==== Sys2Proof/Machine/Display.lean ====
section
/-! DEFINITION. The XOR compositor and the display instructions (spec/44_display.md). -/

namespace Sys2Proof.Machine
open Sys2Proof.Config

/-- One sprite pixel (R172): a set bit flips its cell, and collides when the cell was on. -/
def drawPixel (ox oy : Byte) (r : Nat) (b : Byte) (d : Framebuffer × Bool) (c : Nat) :
    Framebuffer × Bool :=
  if spriteBit b c then
    (Framebuffer.flip d.1 (spriteCell ox oy r c), d.2 || Framebuffer.get d.1 (spriteCell ox oy r c))
  else d

/-- Row `r` of a sprite: columns 0 to 7 of the byte (R171, R172). -/
def drawRow (ox oy : Byte) (r : Nat) (b : Byte) (d : Framebuffer × Bool) : Framebuffer × Bool :=
  [0, 1, 2, 3, 4, 5, 6, 7].foldl (drawPixel ox oy r b) d

/-- The rows from `r` on (R172). -/
def drawRows (ox oy : Byte) : Nat → List Byte → Framebuffer × Bool → Framebuffer × Bool
  | _, [], d => d
  | r, b :: bs, d => drawRows ox oy (r + 1) bs (drawRow ox oy r b d)

/-- `draw(origin_x, origin_y, height)` of R172 over the sprite's bytes: the screen after it, and
whether some cell went from on to off. -/
def draw (f : Framebuffer) (ox oy : Byte) (rows : List Byte) : Framebuffer × Bool :=
  drawRows ox oy 0 rows (f, false)

/-- `00E0` CLS (R173): no flag. -/
def execCls (s : State) : Result := .next (s.setFb Framebuffer.blank).advance

/-- `Dxyn` DRW (R172, R174): both coordinates are read before VF is written. -/
def execDrwUnder (p : MemOorPolicy) (x y : Reg) (n : BitVec 4) (s : State) : Result :=
  withData p n.toNat (encode (.drw x y n)) s fun as =>
    let d := draw s.fb (s.getV x) (s.getV y) (readAll s.mem as)
    (s.setFb d.1).setV vf (flagByte d.2)

/-- `Dxyn` DRW. -/
def execDrw (x y : Reg) (n : BitVec 4) (s : State) : Result :=
  execDrwUnder Params.memOorPolicy x y n s

end Sys2Proof.Machine
end

