-- ==== Sys2Proof/Machine/IndexMemory.lean ====
section
/-! DEFINITION. Index register and memory instructions (spec/43_index_memory.md).  BCD, STORE_REGS
and LOAD_REGS are given for both values of `MEM_OOR_POLICY` (R157) and run under the one of
Machine/Params.lean.  None of them changes `I` (R150). -/

namespace Sys2Proof.Machine
open Sys2Proof.Config

/-- `Annn` LD_INDEX (R151). -/
def execLdIndex (nnn : BitVec 12) (s : State) : Result := .next (s.setI (addrOperand nnn)).advance

/-- `Fx1E` ADD_INDEX (R152): modulo 65536, no flag, the new `I` unchecked. -/
def execAddIndex (x : Reg) (s : State) : Result :=
  .next (s.setI (s.i + (s.getV x).zeroExtend 16)).advance

/-- `Fx29` LD_FONT (R153): an address is computed, no memory read. -/
def execLdFont (x : Reg) (s : State) : Result := .next (s.setI (glyphAddr (s.getV x))).advance

/-- `Fx33` BCD (R154, R157). -/
def execBcdUnder (p : MemOorPolicy) (x : Reg) (s : State) : Result :=
  withData p 3 (encode (.bcd x)) s fun as =>
    s.setMem (s.mem.writeAll as (bcdDigits (s.getV x)))

/-- `Fx33` BCD. -/
def execBcd (x : Reg) (s : State) : Result := execBcdUnder Params.memOorPolicy x s

/-- `Fx55` STORE_REGS (R155, R157). -/
def execStoreRegsUnder (p : MemOorPolicy) (x : Reg) (s : State) : Result :=
  withData p (x.val + 1) (encode (.storeRegs x)) s fun as =>
    s.setMem (s.mem.writeAll as (regsUpTo s x))

/-- `Fx55` STORE_REGS. -/
def execStoreRegs (x : Reg) (s : State) : Result := execStoreRegsUnder Params.memOorPolicy x s

/-- `Fx65` LOAD_REGS (R156, R157). -/
def execLoadRegsUnder (p : MemOorPolicy) (x : Reg) (s : State) : Result :=
  withData p (x.val + 1) (encode (.loadRegs x)) s fun as =>
    s.setVs 0 (readAll s.mem as)

/-- `Fx65` LOAD_REGS. -/
def execLoadRegs (x : Reg) (s : State) : Result := execLoadRegsUnder Params.memOorPolicy x s

end Sys2Proof.Machine
end

