-- ==== Sys2Proof/Machine/InputTimers.lean ====
section
/-! DEFINITION. Key and timer instructions (spec/45_input_timers.md).  None can fault. -/

namespace Sys2Proof.Machine

/-- `Ex9E` SKP (R190): the level of the key is tested, the latch unchanged. -/
def execSkp (x : Reg) (s : State) : Result := .next (s.skipIf (s.getKey (keyOf (s.getV x))))

/-- `ExA1` SKNP (R191). -/
def execSknp (x : Reg) (s : State) : Result := .next (s.skipIf (!s.getKey (keyOf (s.getV x))))

/-- `Fx07` LD_FROM_DT (R192). -/
def execLdFromDt (x : Reg) (s : State) : Result := .next (s.setV x s.dt).advance

/-- `Fx0A` LD_KEY (R193): the engine waits and `pc` stays; the transaction `SetKey` completes it
(R196). -/
def execLdKey (x : Reg) (s : State) : Result := .next (s.setRun (.waitKey x))

/-- `Fx15` LD_DT (R194). -/
def execLdDt (x : Reg) (s : State) : Result := .next (s.setDt (s.getV x)).advance

/-- `Fx18` LD_ST (R195). -/
def execLdSt (x : Reg) (s : State) : Result := .next (s.setSt (s.getV x)).advance

end Sys2Proof.Machine
end

