-- ==== Sys2Proof/Machine/HostPorts.lean ====
section
/-! DEFINITION. The agents beside the instruction engine (spec/60_exceptions.md sections 4 and 5,
spec/70_reset_and_hazards.md): the timer's Tick, the host's SetKey, Reset, Snapshot and ReadSound,
and the status outputs. -/

namespace Sys2Proof.Machine
open Sys2Proof.Config

/-- A timer one tick later: down by 1, to a floor of 0 (R27, R220). -/
def countDown (b : Byte) : Byte := if b = 0 then 0 else b - 1

/-- `Tick` (R220), enabled in every run state (R221). -/
def State.tick (s : State) : State := (s.setDt (countDown s.dt)).setSt (countDown s.st)

/-- `SetKey(k, pressed)` (R231): the latch takes the level; a released key that becomes pressed ends
the wait of an Fx0A in the same transaction (R196). -/
def State.pressKey (k : KeyIx) (pressed : Bool) (s : State) : State :=
  let s' := s.setKeyBit k pressed
  match s.run with
  | .waitKey r =>
    if pressed && !s.getKey k then
      ((s'.setV r (BitVec.ofNat 8 k.val)).setPc (s.pc + 2)).setRun .running
    else s'
  | .running => s'
  | .faulted _ => s'

/-- Memory after a reset with an image: the reset contents, then byte `j` of the image at
`0x200 + j` (R55, R250). -/
def loadedMemory (rom : Rom) : Memory :=
  Memory.writeAll [] (List.range' progBase rom.length) rom

/-- `Reset(rom)` (R250), enabled in every run state.  An image over 3584 bytes is refused: no field
changes and `load_error` is reported (R253).  The model's own fields go on: the draws, so that two
runs from a reset may draw differently (R144), and the transactions still to come. -/
def State.resetWith (rom : Rom) (s : State) : State :=
  if rom.length ≤ romMax then
    { State.reset with mem := loadedMemory rom, draws := s.draws, turns := s.turns, agenda := s.agenda }
  else { s with loadError := true }

/-- `Snapshot` (R233): all 2048 cells as they stand; the read changes nothing. -/
def State.snapshot (s : State) : Framebuffer := s.fb

/-- `sound_on` (R234), what `ReadSound` returns. -/
def State.soundOn (s : State) : Bool := decide (0 < s.st.toNat)

/-- What the output `run_state` distinguishes (R235). -/
inductive RunStatus where
  | running
  | waitKey
  | faulted
  deriving DecidableEq, Repr

/-- The output `run_state` (R235). -/
def State.runStatus (s : State) : RunStatus :=
  match s.run with
  | .running => .running
  | .waitKey _ => .waitKey
  | .faulted _ => .faulted

/-- The numeric code of a fault cause (R210), on the three bits of `fault_cause` (R230). -/
def FaultCause.code : FaultCause → BitVec 3
  | .invalidInstruction => 1
  | .stackOverflow => 2
  | .stackUnderflow => 3
  | .pcInvalid => 4
  | .memOutOfRange => 5

/-- The outputs `fault_cause`, `fault_info`, `fault_pc` and `fault_op` (R235): the record's values
in the fault state; none in the other run states, where their value is not specified and the host
must not use it. -/
def State.faultOutputs (s : State) : Option (BitVec 3 × Word × Word × Word) :=
  match s.run with
  | .faulted r => some (r.cause.code, r.info, r.fpc, r.fop)
  | .running => none
  | .waitKey _ => none

end Sys2Proof.Machine
end

