-- ==== Sys2Proof/Machine/Engine.lean ====
section
/-! DEFINITION. The instruction step (spec/40_execution_step.md R93) and the transactions of all
agents (R90). -/

namespace Sys2Proof.Machine
open Sys2Proof.Config

/-- Whether `pc` can be fetched from: even and within 0x200 to 0xFFE (R94). -/
def pcOk (pc : Word) : Bool :=
  decide (pc.toNat % 2 = 0) && decide (pcMin ≤ pc.toNat) && decide (pc.toNat ≤ pcMax)

/-- The opcode at `pc`, the high byte at the lower address (R56, R95). -/
def State.fetchWord (s : State) : Word := s.mem.read s.pc.toNat ++ s.mem.read (s.pc.toNat + 1)

/-- A `Step` while `run = RUNNING` (R93): the check of `pc`, the fetch, the decoding, then the
instruction; the first check that fails is the fault reported (R214). -/
def runningStep (s : State) : Result :=
  if pcOk s.pc then
    match decode s.fetchWord with
    | .ok i => exec i s
    | .error _ => raiseFault .invalidInstruction s.fetchWord s.fetchWord s
  else raiseFault .pcInvalid s.pc 0 s

/-- A `Step`: it does nothing unless `run = RUNNING` (R92). -/
def engineStep (s : State) : Result :=
  match s.run with
  | .running => runningStep s
  | .waitKey _ => .next s
  | .faulted _ => .next s

/-- One transaction of one agent (R90); each is indivisible (R91).  A host read changes nothing. -/
def transact (t : Transaction) (s : State) : Result :=
  match t with
  | .engine => engineStep s
  | .tick => .next s.tick
  | .setKey k pressed => .next (s.pressKey k pressed)
  | .snapshot => .next s
  | .readSound => .next s
  | .reset rom => .next (s.resetWith rom)

/-- The transaction that comes next in the total order (R61, R100): the first of the agenda, or the
next of the open order when the agenda holds none. -/
def State.upcoming (s : State) : Transaction :=
  match s.agenda with
  | [] => scheduled s.turns
  | t :: _ => t

/-- The state that transaction acts on: the same, but for the model's own record of the order. -/
def State.pastUpcoming (s : State) : State :=
  match s.agenda with
  | [] => s.countTurn
  | _ :: rest => s.setAgenda rest

/-- The next transaction in the total order, on the state the one before it left (R91, R100). -/
def nextTransaction (s : State) : Result := transact s.upcoming s.pastUpcoming

/-- The state in which the next transaction is a `Step` that fetches `w`: the engine runs, the
agenda puts its `Step` next, `pc` can be fetched from (it is 0x200 where it could not), and the two
bytes of `w` stand there, the high byte first (R56). -/
def State.placeWord (s : State) (w : Word) : State :=
  let pc := if pcOk s.pc then s.pc else 0x200
  { s with
    pc := pc
    run := .running
    agenda := [.engine]
    mem := (s.mem.write pc.toNat (w.extractLsb' 8 8)).write (pc.toNat + 1) (w.extractLsb' 0 8) }

end Sys2Proof.Machine
end

