-- ==== Sys2Proof/Machine/Step.lean ====
section
/-! DEFINITION. One step of the machine: its next transaction. -/

namespace Sys2Proof.Machine

/-- One step: the next transaction in the total order (spec/40_execution_step.md R90, R91). -/
def step : State → Host.Outcome State Fault Refusal := nextTransaction

/-- The state in which `step` runs exactly the instruction whose bits, numbered as
spec/opcode_table.json numbers them, are `w`. -/
def State.withFetchWord (s : State) (nbits w : Nat) : State :=
  s.placeWord (BitVec.ofNat 16 (w % 2 ^ nbits))

end Sys2Proof.Machine
end

