-- ==== Sys2Proof/Safety.lean ====
section
/-! DEFINITION. The terms claims are stated in: what an instruction leaves unchanged, the invariant
of reachable states (spec/10_state.md R37), the end of a program (spec/40_execution_step.md R99),
which words an instruction has, and which cells a sprite meets.  The machine uses none of these. -/

namespace Sys2Proof.Machine

/-- The parts of the state beside the general registers, `pc` and memory. -/
inductive Part where
  | index
  | stack
  | delay
  | sound
  | screen
  | keys
  | run
  | draws
  deriving DecidableEq, Repr

/-- From `s` to `t` nothing changes but the registers, parts and bytes of memory listed, and `pc`,
of which a frame says nothing. -/
structure Frame (regs : List Reg) (parts : List Part) (bytes : List Nat) (s t : State) : Prop where
  regs : ∀ r, r ∉ regs → t.getV r = s.getV r
  index : Part.index ∉ parts → t.i = s.i
  stack : Part.stack ∉ parts → t.sp = s.sp ∧ t.stack = s.stack
  delay : Part.delay ∉ parts → t.dt = s.dt
  sound : Part.sound ∉ parts → t.st = s.st
  screen : Part.screen ∉ parts → t.fb = s.fb
  keys : Part.keys ∉ parts → t.key = s.key
  run : Part.run ∉ parts → t.run = s.run
  draws : Part.draws ∉ parts → t.draws = s.draws
  mem : ∀ a, a ∉ bytes → t.mem.read a = s.mem.read a
  loadError : t.loadError = s.loadError
  turns : t.turns = s.turns
  agenda : t.agenda = s.agenda

/-- The words that decode to `i` are exactly the one whose value is `n`. -/
def EncodedAs (i : Instr) (n : Nat) : Prop := ∀ w : Word, decode w = .ok i ↔ w.toNat = n

/-- The instruction runs, writes `V[x]` with a value and nothing else, and goes to the next
instruction. -/
def WritesReg (i : Instr) (s : State) (x : Reg) (value : Nat) : Prop :=
  ∃ t, exec i s = .next t ∧ (t.getV x).toNat = value ∧ t.pc = s.pc + 2 ∧ Frame [x] [] [] s t

/-- The instruction runs, changes nothing but `pc`, and skips the next instruction exactly when the
condition holds. -/
def SkipsWhen (i : Instr) (s : State) (cond : Prop) : Prop :=
  ∃ t, exec i s = .next t ∧ (cond → t.pc = s.pc + 4) ∧ (¬cond → t.pc = s.pc + 2) ∧
    Frame [] [] [] s t

/-- A result takes the fault at this state: the record, `pc` still at the instruction, and nothing
else changed. -/
def TakesFault (r : Result) (s : State) (cause : FaultCause) (info fop : Word) : Prop :=
  ∃ t, r = .next t ∧ t.run = .faulted ⟨cause, info, s.pc, fop⟩ ∧ t.pc = s.pc ∧
    Frame [] [.run] [] s t

/-- Some set bit of the sprite of `rows` rows at `I` meets the cell, for an origin `(ox, oy)`. -/
def SpriteMeets (s : State) (ox oy rows : Nat) (c : CellIx) : Prop :=
  ∃ r k, r < rows ∧ k < 8 ∧ (s.mem.read (s.i.toNat + r)).getLsbD (7 - k) = true ∧
    c.val = (oy + r) % 32 * 64 + (ox + k) % 64

/-- Some set bit of the sprite of `rows` rows meets the cell, for an origin `(ox, oy)`, where row `r` is
the byte at `(I + r) mod 4096`, as `MEM_OOR_POLICY = wrap` has it (R174). -/
def SpriteMeetsWrapped (s : State) (ox oy rows : Nat) (c : CellIx) : Prop :=
  ∃ r k, r < rows ∧ k < 8 ∧ (s.mem.read ((s.i.toNat + r) % 4096)).getLsbD (7 - k) = true ∧
    c.val = (oy + r) % 32 * 64 + (ox + k) % 64

/-- The program has finished (R99): the engine runs and stands at a jump to itself. -/
def State.finished (s : State) : Prop :=
  s.run = .running ∧ pcOk s.pc = true ∧
    ∃ nnn, decode s.fetchWord = .ok (.jp nnn) ∧ nnn.toNat = s.pc.toNat

/-- Transactions one after the other, each on the state the one before it left (R61, R91). -/
def transactAll : List Transaction → State → Result
  | [], s => .next s
  | t :: ts, s =>
    match transact t s with
    | .next s' => transactAll ts s'
    | .fault r => .fault r
    | .refused r => .refused r

/-- `Tick` is eventually scheduled, always (R100): what a claim that a loop on `DT` ends takes as a
hypothesis (assumption log 20). -/
def FairTicks : Prop := ∀ n, ∃ k, n ≤ k ∧ Config.scheduled k = .tick

/-- The program has gone wrong (R216). -/
def State.isFaulted (s : State) : Prop := ∃ rec, s.run = .faulted rec

/-- A run is safe so far when it has not met a fault. -/
def State.safe (s : State) : Prop := ¬s.isFaulted

/-- The invariant of reachable states: of R37, every live stack entry even and in 0x202 to 0x1000 and
`pc` at most 0x10FE; and what it takes to be kept: a waiting Fx0A at an address that can be fetched
from (decision D9, assumption log 12), a fault record about the present `pc` (D10, log 10), and
memory in the model's canonical form (log 22). -/
structure Inv (s : State) : Prop where
  memory : s.mem.wf = true
  entries : ∀ k : Fin 16, k.val < s.sp.val →
    (s.stack.get k).toNat % 2 = 0 ∧ 0x202 ≤ (s.stack.get k).toNat ∧ (s.stack.get k).toNat ≤ 0x1000
  pcBound : s.pc.toNat ≤ 0x10FE
  waiting : ∀ r, s.run = .waitKey r → pcOk s.pc = true
  record : ∀ rec, s.run = .faulted rec → rec.fpc = s.pc

/-- Two states that agree in all but the dead entries of the return stack (R25). -/
structure SameButDeadEntries (s t : State) : Prop where
  sp : t.sp = s.sp
  live : ∀ k : Fin 16, k.val < s.sp.val → t.stack.get k = s.stack.get k
  rest : t = { s with stack := t.stack }

end Sys2Proof.Machine
end

