-- ==== Sys2Proof/Certificates/Slice0/Obligations.lean ====
section
/-! DEFINITION. The statements for the provers. -/

open Sys2Proof Sys2Proof.Machine Sys2Proof.Config

/-! ## Encoding -/

/-- Words written out from the encodings of R74, one or two of every family, decode to the
instructions they stand for, and a neighbour that is invalid does not (95_test_vectors.md 2.7). -/
def Obligations.SampleWordsDecode : Prop :=
  decode 0x00E0 = .ok .cls ∧ decode 0x2300 = .ok (.call 0x300) ∧
  decode 0x332A = .ok (.seImm 3 0x2A) ∧ decode 0x8AB4 = .ok (.addReg 0xA 0xB) ∧
  decode 0x812E = .ok (.shl 1 2) ∧ decode 0xC10F = .ok (.rnd 1 0x0F) ∧
  decode 0xD12F = .ok (.drw 1 2 0xF) ∧ decode 0xE49E = .ok (.skp 4) ∧
  decode 0xF30A = .ok (.ldKey 3) ∧ decode 0xF265 = .ok (.loadRegs 2) ∧
  decode 0x0000 = .error .group0 ∧ decode 0x8128 = .error .group8

/-- R71: the six fields of an opcode, as numbers, and in terms of its two bytes. -/
def Obligations.FieldsOfAnOpcode : Prop :=
  (∀ w : Word,
    (fieldsOf w).group.toNat = w.toNat / 2 ^ 12 ∧
    (fieldsOf w).x.toNat = w.toNat / 2 ^ 8 % 16 ∧
    (fieldsOf w).y.toNat = w.toNat / 2 ^ 4 % 16 ∧
    (fieldsOf w).n.toNat = w.toNat % 16 ∧
    (fieldsOf w).nn.toNat = w.toNat % 256 ∧
    (fieldsOf w).nnn.toNat = w.toNat % 4096) ∧
  ∀ hi lo : Byte,
    (fieldsOf (hi ++ lo)).group.toNat = hi.toNat / 16 ∧
    (fieldsOf (hi ++ lo)).x.toNat = hi.toNat % 16 ∧
    (fieldsOf (hi ++ lo)).nn = lo ∧
    (fieldsOf (hi ++ lo)).y.toNat = lo.toNat / 16 ∧
    (fieldsOf (hi ++ lo)).n.toNat = lo.toNat % 16

/-- Decoding the encoder's word of any instruction gives it back, with every operand at every value
(R74). -/
def Obligations.DecodeOfEncode : Prop := ∀ i : Instr, decode (encode i) = .ok i

/-- An instruction determines its word: no bit of a valid word is dropped by the decoder (R74; SHR
and SHL keep the `y` they ignore). -/
def Obligations.EncodeOfDecode : Prop := ∀ (w : Word) (i : Instr), decode w = .ok i → encode i = w

/-- R74: a word is the instruction of a row of the opcode table if and only if it agrees with the
row's pattern under its mask, and no word is an instruction of two rows.  The decoder dispatches by
group and sub-group (R73) and never consults the table. -/
def Obligations.DecoderAgreesWithOpcodeTable : Prop :=
  (∀ (w : Word) (row : OpcodeRow), row ∈ opcodeTable →
    (w &&& row.mask = row.pattern ↔ ∃ i, decode w = .ok i ∧ i.mnemonic = row.mnemonic)) ∧
  ∀ (w : Word) (r r' : OpcodeRow), r ∈ opcodeTable → r' ∈ opcodeTable →
    w &&& r.mask = r.pattern → w &&& r'.mask = r'.pattern → r = r'

/-- The invalid words are exactly the six spaces of R77's table, and each is rejected by the name of
its space.  That a pattern with no listed effect is invalid is the spec's decision D15. -/
def Obligations.InvalidWordsByTheirSpace : Prop :=
  ∀ w : Word,
    (decode w = .error .group0 ↔ w.toNat / 4096 = 0 ∧ w.toNat ≠ 0x00E0 ∧ w.toNat ≠ 0x00EE) ∧
    (decode w = .error .group5 ↔ w.toNat / 4096 = 5 ∧ w.toNat % 16 ≠ 0) ∧
    (decode w = .error .group8 ↔ w.toNat / 4096 = 8 ∧ w.toNat % 16 ∈ [8, 9, 10, 11, 12, 13, 15]) ∧
    (decode w = .error .group9 ↔ w.toNat / 4096 = 9 ∧ w.toNat % 16 ≠ 0) ∧
    (decode w = .error .groupE ↔ w.toNat / 4096 = 14 ∧ w.toNat % 256 ≠ 0x9E ∧
      w.toNat % 256 ≠ 0xA1) ∧
    (decode w = .error .groupF ↔ w.toNat / 4096 = 15 ∧
      w.toNat % 256 ∉ [0x07, 0x0A, 0x15, 0x18, 0x1E, 0x29, 0x33, 0x55, 0x65]) ∧
    decode w ≠ .error .tooShort

/-! ## The step -/

/-- Where the engine runs, `pc` can be fetched from and the two bytes there, the high byte first, are a
word that decodes to `i`, a `Step` is `exec i` at that very state: `exec` itself moves `pc`, and the
step adds nothing around it.  A step of the machine is that `Step` when the engine's transaction comes
next, on the state without that entry of the agenda; when none is known to come, it is the
transaction the open order gives, and if that is the engine's it is `exec i` with one more turn
counted (assumption log 2). -/
def Obligations.StepRunsDecodedInstruction : Prop :=
  ∀ (s : State) (w : Word) (i : Instr), s.run = .running →
    s.pc.toNat % 2 = 0 → 0x200 ≤ s.pc.toNat → s.pc.toNat ≤ 0xFFE →
    w.toNat = (s.mem.read s.pc.toNat).toNat * 256 + (s.mem.read (s.pc.toNat + 1)).toNat →
    decode w = .ok i →
    engineStep s = exec i s ∧
    (∀ rest, s.agenda = .engine :: rest → step s = exec i { s with agenda := rest }) ∧
    (s.agenda = [] →
      step s = transact (Config.scheduled s.turns) { s with turns := s.turns + 1 } ∧
      transact .engine { s with turns := s.turns + 1 } = exec i { s with turns := s.turns + 1 })

/-- One `Step` of a running engine in the order of R93: the check of `pc`, the fetch of two bytes (R95),
decoding, then the instruction.  That an address that cannot be fetched from raises PC_INVALID here,
before the fetch, is the spec's decision D3 (assumption log 11); that a word of no row raises
INVALID_INSTRUCTION is decision D15 (log 15); the precise record with nothing else changed is
decision D10 (log 10). -/
def Obligations.EngineStepInOrder : Prop :=
  ∀ s : State, s.run = .running →
    (s.pc.toNat % 2 = 1 ∨ s.pc.toNat < 0x200 ∨ 0xFFE < s.pc.toNat →
      TakesFault (engineStep s) s .pcInvalid s.pc 0) ∧
    (s.pc.toNat % 2 = 0 → 0x200 ≤ s.pc.toNat → s.pc.toNat ≤ 0xFFE →
      ∀ w : Word,
        w.toNat = (s.mem.read s.pc.toNat).toNat * 256 + (s.mem.read (s.pc.toNat + 1)).toNat →
        (∀ i, decode w = .ok i → engineStep s = exec i s) ∧
        ((∀ i, decode w ≠ .ok i) → TakesFault (engineStep s) s .invalidInstruction w w))

/-- A `Step` does nothing while a key is waited for or a fault is held, whatever the rest of the
state is; the two run states are the spec's decisions D9 and D10. -/
def Obligations.EngineHeldUnlessRunning : Prop :=
  ∀ s : State, ((∃ r, s.run = .waitKey r) ∨ ∃ rec, s.run = .faulted rec) → engineStep s = .next s

/-- The transactions form one total order, each on the state the one before it left: a step is the
first transaction of the agenda, on the state without it, and when the agenda holds none it is the
next of the open order, `Config.scheduled`, a free value of which nothing is known.  Agenda and turns
are the model's own form of the open order (assumption log 2). -/
def Obligations.StepIsTheNextTransaction : Prop :=
  (∀ s : State, s.agenda = [] →
    step s = transact (Config.scheduled s.turns) { s with turns := s.turns + 1 }) ∧
  ∀ (s : State) (t : Transaction) (rest : List Transaction),
    s.agenda = t :: rest → step s = transact t { s with agenda := rest }

/-- A word placed where the next instruction is fetched is the one the next step runs, its place in the
agenda taken off.  This says
what the model's own `withFetchWord` does (assumption log 7); the spec has no such operation. -/
def Obligations.PlacedWordRunsNext : Prop :=
  ∀ (s : State) (w : Word) (i : Instr), decode w = .ok i →
    step (s.withFetchWord 16 w.toNat) = exec i { s.withFetchWord 16 w.toNat with agenda := [] } ∧
      ((s.pc.toNat % 2 = 0 ∧ 0x200 ≤ s.pc.toNat ∧ s.pc.toNat ≤ 0xFFE) →
        (s.withFetchWord 16 w.toNat).pc = s.pc ∧
        ∀ a, a ≠ s.pc.toNat → a ≠ s.pc.toNat + 1 →
          (s.withFetchWord 16 w.toNat).mem.read a = s.mem.read a)

/-- Every step answers a next state: no transaction of any agent, and no instruction in any state,
ends in a fault or a refusal of the model.  R93 says a `Step` results in the next state or in a fault;
that each of the spec's five faults is itself a next state, held in `run`, is the spec's decision D10
in the model's form (assumption log 10). -/
def Obligations.StepAlwaysAnswersNext : Prop := ∀ s : State, ∃ t, step s = .next t

/-- Faults are precise, over all instructions and both faults of the fetch: when a `Step` of a
running engine leaves it faulted, nothing but `run` has changed, the record names the `pc` of the
step, and its opcode is the word fetched, or 0 when the fault is PC_INVALID.  Precision and the
record are the spec's decision D10. -/
def Obligations.FaultsArePrecise : Prop :=
  ∀ (s t : State) (rec : FaultRecord), s.run = .running → engineStep s = .next t →
    t.run = .faulted rec →
    t = { s with run := .faulted rec } ∧ rec.fpc = s.pc ∧
      (rec.cause = .pcInvalid → rec.fop = 0) ∧
      (rec.cause ≠ .pcInvalid →
        rec.fop.toNat =
          (s.mem.read s.pc.toNat).toNat * 256 + (s.mem.read (s.pc.toNat + 1)).toNat)

/-- Which instruction can raise which fault, and when: 2nnn a full stack, 00EE an empty one, and the
four instructions that reach data an address outside memory; no instruction raises another.  The
codes and the two added causes are the spec's decisions D3, D4 and D11. -/
def Obligations.FaultsByInstruction : Prop :=
  ∀ (i : Instr) (s t : State) (rec : FaultRecord), s.run = .running → exec i s = .next t →
    t.run = .faulted rec →
    (rec.cause = .stackOverflow ∧ s.sp.val = 16 ∧ ∃ nnn, i = .call nnn) ∨
    (rec.cause = .stackUnderflow ∧ s.sp.val = 0 ∧ i = .ret) ∨
    (rec.cause = .memOutOfRange ∧
      ((∃ x y n, i = .drw x y n ∧ 0 < n.toNat ∧ 4096 ≤ s.i.toNat + n.toNat - 1) ∨
       (∃ x, i = .bcd x ∧ 4096 ≤ s.i.toNat + 2) ∨
       (∃ x, i = .storeRegs x ∧ 4096 ≤ s.i.toNat + x.val) ∨
       (∃ x, i = .loadRegs x ∧ 4096 ≤ s.i.toNat + x.val)))

/-! ## Control transfer -/

/-- R111: 1nnn writes `nnn` to `pc` as it stands, whatever `pc` was, and changes nothing else. -/
def Obligations.JpSetsPc : Prop :=
  ∀ (nnn : BitVec 12) (s : State),
    EncodedAs (.jp nnn) (0x1000 + nnn.toNat) ∧
    ∃ t, exec (.jp nnn) s = .next t ∧ t.pc.toNat = nnn.toNat ∧ Frame [] [] [] s t

/-- R117: Bnnn writes the sum of `nnn` and `V[0]` to `pc`, with no wrap. -/
def Obligations.JpV0SetsPc : Prop :=
  ∀ (nnn : BitVec 12) (s : State),
    EncodedAs (.jpV0 nnn) (0xB000 + nnn.toNat) ∧
    ∃ t, exec (.jpV0 nnn) s = .next t ∧ t.pc.toNat = nnn.toNat + (s.getV 0).toNat ∧
      Frame [] [] [] s t

/-- R112: 2nnn pushes the address of the next instruction and goes to `nnn`; on a full stack it raises
STACK_OVERFLOW with that address, nothing pushed and `pc` unchanged. -/
def Obligations.CallPushesOrOverflows : Prop :=
  ∀ (nnn : BitVec 12) (s : State),
    EncodedAs (.call nnn) (0x2000 + nnn.toNat) ∧
    (∀ k : Fin 16, s.sp.val = k.val →
      ∃ t, exec (.call nnn) s = .next t ∧ t.stack.get k = s.pc + 2 ∧
        (∀ j : Fin 16, j ≠ k → t.stack.get j = s.stack.get j) ∧
        t.sp.val = s.sp.val + 1 ∧ t.pc.toNat = nnn.toNat ∧ Frame [] [.stack] [] s t) ∧
    (s.sp.val = 16 →
      ∃ t rec, exec (.call nnn) s = .next t ∧ t.run = .faulted rec ∧
        rec.cause = .stackOverflow ∧ rec.info = s.pc + 2 ∧ t.pc = s.pc ∧ Frame [] [.run] [] s t)

/-- 00EE goes to the entry on top of the stack, as it stands, and takes it off; on an empty stack it
raises STACK_UNDERFLOW with 0, `sp` and `pc` unchanged (41_control_flow.md, RET).  That every entry
keeps its value, the one popped and now dead among them, is the model's deduction from the
pseudocode, which writes `sp` alone (assumption log 16). -/
def Obligations.RetPopsOrUnderflows : Prop :=
  ∀ s : State,
    EncodedAs .ret 0x00EE ∧
    (∀ k : Fin 16, s.sp.val = k.val + 1 →
      ∃ t, exec .ret s = .next t ∧ t.pc = s.stack.get k ∧ t.sp.val = k.val ∧
        t.stack = s.stack ∧ Frame [] [.stack] [] s t) ∧
    (s.sp.val = 0 →
      ∃ t rec, exec .ret s = .next t ∧ t.run = .faulted rec ∧
        rec.cause = .stackUnderflow ∧ rec.info = 0 ∧ t.pc = s.pc ∧ Frame [] [.run] [] s t)

/-- The document's round trip (95_test_vectors.md S5): a return right after a call comes back to the
instruction after the call, with the stack as it was. -/
def Obligations.RetUndoesCall : Prop :=
  ∀ (nnn : BitVec 12) (s : State), s.sp.val < 16 →
    ∃ t u, exec (.call nnn) s = .next t ∧ exec .ret t = .next u ∧ u.pc = s.pc + 2 ∧ u.sp = s.sp ∧
      (∀ k : Fin 16, k.val < s.sp.val → u.stack.get k = s.stack.get k) ∧ Frame [] [.stack] [] s u

/-- R113 to R116: each of the four skips goes to `a + 4` exactly when its comparison holds, and to
`a + 2` when it does not, changing nothing else. -/
def Obligations.RegisterSkips : Prop :=
  ∀ (x y : Reg) (nn : Byte) (s : State),
    (EncodedAs (.seImm x nn) (0x3000 + x.val * 256 + nn.toNat) ∧
      SkipsWhen (.seImm x nn) s ((s.getV x).toNat = nn.toNat)) ∧
    (EncodedAs (.sneImm x nn) (0x4000 + x.val * 256 + nn.toNat) ∧
      SkipsWhen (.sneImm x nn) s ((s.getV x).toNat ≠ nn.toNat)) ∧
    (EncodedAs (.seReg x y) (0x5000 + x.val * 256 + y.val * 16) ∧
      SkipsWhen (.seReg x y) s ((s.getV x).toNat = (s.getV y).toNat)) ∧
    (EncodedAs (.sneReg x y) (0x9000 + x.val * 256 + y.val * 16) ∧
      SkipsWhen (.sneReg x y) s ((s.getV x).toNat ≠ (s.getV y).toNat))

/-! ## Register load, arithmetic, logic and random -/

/-- R133, R134: 6xnn loads `nn`; 7xnn adds it modulo 256 and writes no flag, unless `x = 0xF`, when VF
is the destination. -/
def Obligations.LoadAndAddImmediate : Prop :=
  ∀ (x : Reg) (nn : Byte) (s : State),
    (EncodedAs (.ldImm x nn) (0x6000 + x.val * 256 + nn.toNat) ∧
      WritesReg (.ldImm x nn) s x nn.toNat) ∧
    (EncodedAs (.addImm x nn) (0x7000 + x.val * 256 + nn.toNat) ∧
      WritesReg (.addImm x nn) s x (((s.getV x).toNat + nn.toNat) % 256))

/-- R135: 8xy0 copies `V[y]` to `V[x]`. -/
def Obligations.LdRegCopies : Prop :=
  ∀ (x y : Reg) (s : State),
    EncodedAs (.ldReg x y) (0x8000 + x.val * 256 + y.val * 16) ∧
    WritesReg (.ldReg x y) s x (s.getV y).toNat

/-- 8xy1, 8xy2, 8xy3 act on all 8 bits independently and write `V[x]` alone: VF keeps its value unless
it is the destination, which is the spec's decision D20. -/
def Obligations.LogicActsBitwise : Prop :=
  ∀ (x y : Reg) (s : State),
    (EncodedAs (.orReg x y) (0x8001 + x.val * 256 + y.val * 16) ∧
      ∃ t, exec (.orReg x y) s = .next t ∧ t.pc = s.pc + 2 ∧ Frame [x] [] [] s t ∧
        ∀ k, (t.getV x).getLsbD k = ((s.getV x).getLsbD k || (s.getV y).getLsbD k)) ∧
    (EncodedAs (.andReg x y) (0x8002 + x.val * 256 + y.val * 16) ∧
      ∃ t, exec (.andReg x y) s = .next t ∧ t.pc = s.pc + 2 ∧ Frame [x] [] [] s t ∧
        ∀ k, (t.getV x).getLsbD k = ((s.getV x).getLsbD k && (s.getV y).getLsbD k)) ∧
    (EncodedAs (.xorReg x y) (0x8003 + x.val * 256 + y.val * 16) ∧
      ∃ t, exec (.xorReg x y) s = .next t ∧ t.pc = s.pc + 2 ∧ Frame [x] [] [] s t ∧
        ∀ k, (t.getV x).getLsbD k = ((s.getV x).getLsbD k != (s.getV y).getLsbD k))

/-- 8xy4, 8xy5, 8xy7: the result modulo 256 in `V[x]` and the carry or no-borrow flag in VF, from the
operands as they were.  When `x = 0xF` the write the document lists later stands, the flag of 8Fy4
and the results of 8Fy5 and 8Fy7: the spec's decision D7 and the model's choice of
`VF_ALIAS_POLICY` (assumption log 4). -/
def Obligations.AddAndSubtractWithFlag : Prop :=
  ∀ (x y : Reg) (s : State),
    (EncodedAs (.addReg x y) (0x8004 + x.val * 256 + y.val * 16) ∧
      ∃ t, exec (.addReg x y) s = .next t ∧ t.pc = s.pc + 2 ∧ Frame [x, vf] [] [] s t ∧
        (x ≠ vf → (t.getV x).toNat = ((s.getV x).toNat + (s.getV y).toNat) % 256) ∧
        (t.getV vf).toNat = if (s.getV x).toNat + (s.getV y).toNat > 255 then 1 else 0) ∧
    (EncodedAs (.sub x y) (0x8005 + x.val * 256 + y.val * 16) ∧
      ∃ t, exec (.sub x y) s = .next t ∧ t.pc = s.pc + 2 ∧ Frame [x, vf] [] [] s t ∧
        (t.getV x).toNat = ((s.getV x).toNat + 256 - (s.getV y).toNat) % 256 ∧
        (x ≠ vf → (t.getV vf).toNat = if (s.getV x).toNat ≥ (s.getV y).toNat then 1 else 0)) ∧
    (EncodedAs (.subn x y) (0x8007 + x.val * 256 + y.val * 16) ∧
      ∃ t, exec (.subn x y) s = .next t ∧ t.pc = s.pc + 2 ∧ Frame [x, vf] [] [] s t ∧
        (t.getV x).toNat = ((s.getV y).toNat + 256 - (s.getV x).toNat) % 256 ∧
        (x ≠ vf → (t.getV vf).toNat = if (s.getV y).toNat ≥ (s.getV x).toNat then 1 else 0))

/-- 8xy6, 8xyE: `V[x]` shifted by one bit, 0 shifted in, the bit shifted out in VF; the field `y` makes
no difference.  When `x = 0xF` the result stands (decision D7; assumption log 4). -/
def Obligations.ShiftsWithFlag : Prop :=
  ∀ (x y : Reg) (s : State),
    (EncodedAs (.shr x y) (0x8006 + x.val * 256 + y.val * 16) ∧
      (∀ y' : Reg, exec (.shr x y') s = exec (.shr x y) s) ∧
      ∃ t, exec (.shr x y) s = .next t ∧ t.pc = s.pc + 2 ∧ Frame [x, vf] [] [] s t ∧
        (t.getV x).toNat = (s.getV x).toNat / 2 ∧
        (x ≠ vf → (t.getV vf).toNat = (s.getV x).toNat % 2)) ∧
    (EncodedAs (.shl x y) (0x800E + x.val * 256 + y.val * 16) ∧
      (∀ y' : Reg, exec (.shl x y') s = exec (.shl x y) s) ∧
      ∃ t, exec (.shl x y) s = .next t ∧ t.pc = s.pc + 2 ∧ Frame [x, vf] [] [] s t ∧
        (t.getV x).toNat = (s.getV x).toNat * 2 % 256 ∧
        (x ≠ vf → (t.getV vf).toNat = (s.getV x).toNat / 128))

/-- The five instructions that write a result and a flag, with VF as their destination, under each of
the three values of `VF_ALIAS_POLICY`; and no policy makes a difference to any other destination.
The policies are the spec's decision D7. -/
def Obligations.FlagDestinationUnderEveryPolicy : Prop :=
  ∀ (p : VfAliasPolicy) (y : Reg) (s : State),
    (∃ t, execAddRegUnder p vf y s = .next t ∧ (t.getV vf).toNat =
      (match p with
        | .resultWins => ((s.getV vf).toNat + (s.getV y).toNat) % 256
        | .listedOrder | .flagWins =>
          if (s.getV vf).toNat + (s.getV y).toNat > 255 then 1 else 0)) ∧
    (∃ t, execSubUnder p vf y s = .next t ∧ (t.getV vf).toNat =
      (match p with
        | .flagWins => if (s.getV vf).toNat ≥ (s.getV y).toNat then 1 else 0
        | .listedOrder | .resultWins => ((s.getV vf).toNat + 256 - (s.getV y).toNat) % 256)) ∧
    (∃ t, execShrUnder p vf y s = .next t ∧ (t.getV vf).toNat =
      (match p with
        | .flagWins => (s.getV vf).toNat % 2
        | .listedOrder | .resultWins => (s.getV vf).toNat / 2)) ∧
    (∃ t, execSubnUnder p vf y s = .next t ∧ (t.getV vf).toNat =
      (match p with
        | .flagWins => if (s.getV y).toNat ≥ (s.getV vf).toNat then 1 else 0
        | .listedOrder | .resultWins => ((s.getV y).toNat + 256 - (s.getV vf).toNat) % 256)) ∧
    (∃ t, execShlUnder p vf y s = .next t ∧ (t.getV vf).toNat =
      (match p with
        | .flagWins => (s.getV vf).toNat / 128
        | .listedOrder | .resultWins => (s.getV vf).toNat * 2 % 256)) ∧
    ∀ (x : Reg) (q : VfAliasPolicy), x ≠ vf →
      execAddRegUnder p x y s = execAddRegUnder q x y s ∧
      execSubUnder p x y s = execSubUnder q x y s ∧
      execShrUnder p x y s = execShrUnder q x y s ∧
      execSubnUnder p x y s = execSubnUnder q x y s ∧
      execShlUnder p x y s = execShlUnder q x y s

/-- Cxnn writes a freely drawn byte masked with `nn`: the byte of this draw is the free value
`Config.drawByte` at the count of draws, the count rises so that the next draw is another, and every
bit that is 0 in `nn` is 0 whatever was drawn.  The free draw is the spec's decision D14, its form
the model's (assumption log 1). -/
def Obligations.RndMasksAFreeByte : Prop :=
  ∀ (x : Reg) (nn : Byte) (s : State),
    EncodedAs (.rnd x nn) (0xC000 + x.val * 256 + nn.toNat) ∧
    ∃ t, exec (.rnd x nn) s = .next t ∧ t.pc = s.pc + 2 ∧ Frame [x] [.draws] [] s t ∧
      t.draws = s.draws + 1 ∧
      (∀ k, (t.getV x).getLsbD k = ((Config.drawByte s.draws).getLsbD k && nn.getLsbD k)) ∧
      (∀ k, nn.getLsbD k = false → (t.getV x).getLsbD k = false)

/-! ## Index register and memory -/

/-- R151: Annn writes `nnn` to `I`. -/
def Obligations.LdIndexSetsI : Prop :=
  ∀ (nnn : BitVec 12) (s : State),
    EncodedAs (.ldIndex nnn) (0xA000 + nnn.toNat) ∧
    ∃ t, exec (.ldIndex nnn) s = .next t ∧ t.i.toNat = nnn.toNat ∧ t.pc = s.pc + 2 ∧
      Frame [] [.index] [] s t

/-- Fx1E adds `V[x]` to `I` modulo 65536 with no flag and no check (decision D20); Fx29 points `I` at
the glyph of the low nibble of `V[x]`, at `FONT_BASE = 0` (decision D5; assumption log 6). -/
def Obligations.AddIndexAndLdFont : Prop :=
  ∀ (x : Reg) (s : State),
    (EncodedAs (.addIndex x) (0xF01E + x.val * 256) ∧
      ∃ t, exec (.addIndex x) s = .next t ∧
        t.i.toNat = (s.i.toNat + (s.getV x).toNat) % 65536 ∧ t.pc = s.pc + 2 ∧
        Frame [] [.index] [] s t) ∧
    (EncodedAs (.ldFont x) (0xF029 + x.val * 256) ∧
      ∃ t, exec (.ldFont x) s = .next t ∧
        t.i.toNat = 5 * ((s.getV x).toNat % 16) ∧ t.pc = s.pc + 2 ∧ Frame [] [.index] [] s t)

/-- Fx33 with `I + 2` inside memory writes the three decimal digits of `V[x]` at `I`, `I + 1` and
`I + 2`, the addresses the meaning computes, and nothing else; `I` and every register keep their
values (decision D4 says when it does not run). -/
def Obligations.BcdStoresDigits : Prop :=
  ∀ (x : Reg) (s : State), EncodedAs (.bcd x) (0xF033 + x.val * 256) ∧
    (s.i.toNat + 2 < 4096 →
      dataAddrs Params.memOorPolicy s.i.toNat 3 =
        some [s.i.toNat, s.i.toNat + 1, s.i.toNat + 2] ∧
      ∃ t, exec (.bcd x) s = .next t ∧
        (t.mem.read s.i.toNat).toNat = (s.getV x).toNat / 100 ∧
        (t.mem.read (s.i.toNat + 1)).toNat = (s.getV x).toNat / 10 % 10 ∧
        (t.mem.read (s.i.toNat + 2)).toNat = (s.getV x).toNat % 10 ∧
        t.pc = s.pc + 2 ∧ Frame [] [] [s.i.toNat, s.i.toNat + 1, s.i.toNat + 2] s t)

/-- Fx55 with `I + x` inside memory writes `V[k]` at `I + k` for each `k` up to `x`, at the addresses
the meaning computes, and nothing else; `I` keeps its value (decisions D4, D8). -/
def Obligations.StoreRegsStores : Prop :=
  ∀ (x : Reg) (s : State), EncodedAs (.storeRegs x) (0xF055 + x.val * 256) ∧
    (s.i.toNat + x.val < 4096 →
      dataAddrs Params.memOorPolicy s.i.toNat (x.val + 1) =
        some ((List.range (x.val + 1)).map (s.i.toNat + ·)) ∧
      ∃ t, exec (.storeRegs x) s = .next t ∧
        (∀ k : Reg, k ≤ x → t.mem.read (s.i.toNat + k.val) = s.getV k) ∧
        t.pc = s.pc + 2 ∧ Frame [] [] ((List.range (x.val + 1)).map (s.i.toNat + ·)) s t)

/-- Fx65 with `I + x` inside memory loads `V[k]` from `I + k` for each `k` up to `x`; the registers
above `x`, `I` and memory keep their values (decisions D4, D8). -/
def Obligations.LoadRegsLoads : Prop :=
  ∀ (x : Reg) (s : State), EncodedAs (.loadRegs x) (0xF065 + x.val * 256) ∧
    (s.i.toNat + x.val < 4096 →
      ∃ t, exec (.loadRegs x) s = .next t ∧
        (∀ k : Reg, k ≤ x → t.getV k = s.mem.read (s.i.toNat + k.val)) ∧
        t.pc = s.pc + 2 ∧ Frame ((List.finRange 16).filter (· ≤ x)) [] [] s t)

/-- Fx33, Fx55, Fx65 and Dxyn with a height above 0 raise MEM_OUT_OF_RANGE, with the first address at
or above 4096 and no other effect, when their last byte lies outside memory: the policy `fault`, the
spec's decision D4 and the model's value (assumption log 3). -/
def Obligations.OutOfRangeAccessFaults : Prop :=
  ∀ (x y : Reg) (n : BitVec 4) (s : State) (info : Word),
    info.toNat = max s.i.toNat 4096 →
    (4096 ≤ s.i.toNat + 2 →
      TakesFault (exec (.bcd x) s) s .memOutOfRange info (encode (.bcd x))) ∧
    (4096 ≤ s.i.toNat + x.val →
      TakesFault (exec (.storeRegs x) s) s .memOutOfRange info (encode (.storeRegs x)) ∧
      TakesFault (exec (.loadRegs x) s) s .memOutOfRange info (encode (.loadRegs x))) ∧
    (0 < n.toNat → 4096 ≤ s.i.toNat + n.toNat - 1 →
      TakesFault (exec (.drw x y n) s) s .memOutOfRange info (encode (.drw x y n)))

/-- Under the other value of `MEM_OOR_POLICY`, `wrap`, Fx33, Fx55 and Fx65 never fault and reach
`(I + k) mod 4096` in place of `I + k`; nothing else changes (decision D4). -/
def Obligations.WrapPolicyReachesAddressesModulo : Prop :=
  ∀ (x : Reg) (s : State),
    (∃ t, execBcdUnder .wrap x s = .next t ∧
      (t.mem.read (s.i.toNat % 4096)).toNat = (s.getV x).toNat / 100 ∧
      (t.mem.read ((s.i.toNat + 1) % 4096)).toNat = (s.getV x).toNat / 10 % 10 ∧
      (t.mem.read ((s.i.toNat + 2) % 4096)).toNat = (s.getV x).toNat % 10 ∧ t.pc = s.pc + 2 ∧
      Frame [] [] ((List.range 3).map (fun k => (s.i.toNat + k) % 4096)) s t) ∧
    (∃ t, execStoreRegsUnder .wrap x s = .next t ∧
      (∀ k : Reg, k ≤ x → t.mem.read ((s.i.toNat + k.val) % 4096) = s.getV k) ∧ t.pc = s.pc + 2 ∧
      Frame [] [] ((List.range (x.val + 1)).map (fun k => (s.i.toNat + k) % 4096)) s t) ∧
    (∃ t, execLoadRegsUnder .wrap x s = .next t ∧
      (∀ k : Reg, k ≤ x → t.getV k = s.mem.read ((s.i.toNat + k.val) % 4096)) ∧ t.pc = s.pc + 2 ∧
      Frame ((List.finRange 16).filter (· ≤ x)) [] [] s t)

/-- The document's round trip (95_test_vectors.md S7): what Fx55 stored, Fx65 with the same `x` and the
same `I` loads back, from any state with the memory the store left, whatever its registers hold. -/
def Obligations.LoadRegsReadsBackStoreRegs : Prop :=
  ∀ (x : Reg) (s : State), s.i.toNat + x.val < 4096 →
    ∃ t, exec (.storeRegs x) s = .next t ∧
      ∀ t' : State, t'.mem = t.mem → t'.i = s.i →
        ∃ u, exec (.loadRegs x) t' = .next u ∧ ∀ k : Reg, k ≤ x → u.getV k = s.getV k

/-- A store over the very next instruction is what the next fetch reads, with no barrier (20_memory.md
section 9; 95_test_vectors.md P8): after Fx55 at `I = a + 2` the word fetched is `V[0]`, `V[1]`. -/
def Obligations.StoreIsSeenByTheNextFetch : Prop :=
  ∀ (x : Reg) (s : State), 1 ≤ x.val → s.i = s.pc + 2 → s.i.toNat + x.val < 4096 →
    ∃ t, exec (.storeRegs x) s = .next t ∧
      t.fetchWord.toNat = (s.getV 0).toNat * 256 + (s.getV 1).toNat

/-! ## Display -/

/-- R173: 00E0 makes all 2048 cells false and changes nothing else: VF keeps its value. -/
def Obligations.ClsBlanksTheScreen : Prop :=
  ∀ s : State, EncodedAs .cls 0x00E0 ∧
    ∃ t, exec .cls s = .next t ∧ (∀ c : CellIx, t.getFb c = false) ∧ t.pc = s.pc + 2 ∧
      Frame [] [.screen] [] s t

/-- Dxyn with its rows inside memory, or with none: a cell changes exactly when a set bit of the sprite
meets it, each pixel wrapped on its own, and VF is 1 exactly when such a cell was on before; `I`,
memory and every other register keep their values (44_display.md; decisions D4 and D22). -/
def Obligations.DrwFlipsTheSpritesCells : Prop :=
  ∀ (x y : Reg) (n : BitVec 4) (s : State),
    EncodedAs (.drw x y n) (0xD000 + x.val * 256 + y.val * 16 + n.toNat) ∧
    (n.toNat = 0 ∨ s.i.toNat + n.toNat ≤ 4096 →
      ∃ t, exec (.drw x y n) s = .next t ∧ t.pc = s.pc + 2 ∧ Frame [vf] [.screen] [] s t ∧
        (∀ c : CellIx, SpriteMeets s (s.getV x).toNat (s.getV y).toNat n.toNat c →
          t.getFb c = !(s.getFb c)) ∧
        (∀ c : CellIx, ¬SpriteMeets s (s.getV x).toNat (s.getV y).toNat n.toNat c →
          t.getFb c = s.getFb c) ∧
        ((∃ c, SpriteMeets s (s.getV x).toNat (s.getV y).toNat n.toNat c ∧ s.getFb c = true) →
          t.getV vf = 1) ∧
        (¬(∃ c, SpriteMeets s (s.getV x).toNat (s.getV y).toNat n.toNat c ∧ s.getFb c = true) →
          t.getV vf = 0))

/-- The document's double draw (95_test_vectors.md S6), on any background: the same Dxyn again, with
coordinates not in VF, gives back the screen; on a blank screen the first draw leaves VF 0 and the
second leaves it 1 exactly when the sprite has a set bit. -/
def Obligations.DrawingTwiceRestoresTheScreen : Prop :=
  ∀ (x y : Reg) (n : BitVec 4) (s : State), x ≠ vf → y ≠ vf → s.i.toNat + n.toNat ≤ 4096 →
    ∃ t u, exec (.drw x y n) s = .next t ∧ exec (.drw x y n) t = .next u ∧ u.fb = s.fb ∧
      ((∀ c : CellIx, s.getFb c = false) →
        t.getV vf = 0 ∧
        ((∃ r, r < n.toNat ∧ s.mem.read (s.i.toNat + r) ≠ 0) → u.getV vf = 1) ∧
        ((∀ r, r < n.toNat → s.mem.read (s.i.toNat + r) = 0) → u.getV vf = 0))

/-- Under `wrap` a Dxyn never faults: it acts as one whose row `r` is the byte at `(I + r) mod 4096`.  A
cell changes exactly when a set bit of such a row meets it, and VF is 1 exactly when such a cell was
on before (decision D4). -/
def Obligations.WrapPolicyDrawsRowsModulo : Prop :=
  ∀ (x y : Reg) (n : BitVec 4) (s : State),
    ∃ t, execDrwUnder .wrap x y n s = .next t ∧ t.pc = s.pc + 2 ∧ Frame [vf] [.screen] [] s t ∧
      (∀ c : CellIx, SpriteMeetsWrapped s (s.getV x).toNat (s.getV y).toNat n.toNat c →
        t.getFb c = !(s.getFb c)) ∧
      (∀ c : CellIx, ¬SpriteMeetsWrapped s (s.getV x).toNat (s.getV y).toNat n.toNat c →
        t.getFb c = s.getFb c) ∧
      ((∃ c, SpriteMeetsWrapped s (s.getV x).toNat (s.getV y).toNat n.toNat c ∧
          s.getFb c = true) → t.getV vf = 1) ∧
      (¬(∃ c, SpriteMeetsWrapped s (s.getV x).toNat (s.getV y).toNat n.toNat c ∧
          s.getFb c = true) → t.getV vf = 0)

/-! ## Keys and timers -/

/-- R190, R191: Ex9E skips exactly when the key of the low nibble of `V[x]` is pressed, ExA1 exactly
when it is not; the latch is not changed by the read. -/
def Obligations.KeySkips : Prop :=
  ∀ (x : Reg) (s : State) (k : KeyIx), k.val = (s.getV x).toNat % 16 →
    (EncodedAs (.skp x) (0xE09E + x.val * 256) ∧ SkipsWhen (.skp x) s (s.getKey k = true)) ∧
    (EncodedAs (.sknp x) (0xE0A1 + x.val * 256) ∧ SkipsWhen (.sknp x) s (s.getKey k = false))

/-- R192, R194, R195: Fx07 copies `DT` to `V[x]`, Fx15 copies `V[x]` to `DT`, Fx18 to `ST`, whose being
above 0 is the output `sound_on`; nothing else changes. -/
def Obligations.TimerInstructionsCopy : Prop :=
  ∀ (x : Reg) (s : State),
    (EncodedAs (.ldFromDt x) (0xF007 + x.val * 256) ∧
      WritesReg (.ldFromDt x) s x s.dt.toNat) ∧
    (EncodedAs (.ldDt x) (0xF015 + x.val * 256) ∧
      ∃ t, exec (.ldDt x) s = .next t ∧ t.dt = s.getV x ∧ t.pc = s.pc + 2 ∧
        Frame [] [.delay] [] s t) ∧
    (EncodedAs (.ldSt x) (0xF018 + x.val * 256) ∧
      ∃ t, exec (.ldSt x) s = .next t ∧ t.st = s.getV x ∧ t.pc = s.pc + 2 ∧
        (t.soundOn = true ↔ (s.getV x).toNat > 0) ∧ Frame [] [.sound] [] s t)

/-- Fx0A: the engine waits for a key, `pc` stays at the instruction and nothing else changes, whatever
keys are down (decision D9). -/
def Obligations.LdKeyWaits : Prop :=
  ∀ (x : Reg) (s : State), EncodedAs (.ldKey x) (0xF00A + x.val * 256) ∧
    ∃ t, exec (.ldKey x) s = .next t ∧ t.run = .waitKey x ∧ t.pc = s.pc ∧ Frame [] [.run] [] s t

/-- A key that goes from released to pressed ends a wait in the same transaction: its index is in the
waiting instruction's register, `pc` at the next instruction and the engine runs; the latch has the
key pressed, and nothing else changes (decision D9). -/
def Obligations.KeyPressEndsTheWait : Prop :=
  ∀ (s : State) (r : Reg) (k : KeyIx), s.run = .waitKey r → s.getKey k = false →
    ∃ t, transact (.setKey k true) s = .next t ∧ (t.getV r).toNat = k.val ∧ t.pc = s.pc + 2 ∧
      t.run = .running ∧ (∀ j, t.getKey j = if j = k then true else s.getKey j) ∧
      Frame [r] [.keys, .run] [] s t

/-- Every other key event changes the latch and nothing else: a release, a press of a key already down,
and any event while the engine runs or is faulted (decisions D9, D12). -/
def Obligations.OtherKeyEventsOnlySetTheLatch : Prop :=
  ∀ (s : State) (k : KeyIx) (pressed : Bool),
    (pressed = false ∨ s.getKey k = true ∨ ∀ r, s.run ≠ .waitKey r) →
    ∃ t, transact (.setKey k pressed) s = .next t ∧
      (∀ j, t.getKey j = if j = k then pressed else s.getKey j) ∧ t.pc = s.pc ∧
      Frame [] [.keys] [] s t

/-- A tick takes 1 from each timer, to a floor of 0, in one transaction, and touches nothing else (R220).
It does so in every run state: in the fault state that is the spec's decision D12 (R221; assumption
log 13). -/
def Obligations.TickCountsDown : Prop :=
  ∀ s : State, ∃ t, transact .tick s = .next t ∧ t.dt.toNat = s.dt.toNat - 1 ∧
    t.st.toNat = s.st.toNat - 1 ∧ t.pc = s.pc ∧ Frame [] [.delay, .sound] [] s t

/-- Ticks in a row take a timer to 0 and leave it there: after `k` ticks `DT` and `ST` are what is left
of them, in whatever run state the machine is (decision D12 for the fault state). -/
def Obligations.TicksReachZero : Prop :=
  ∀ (k : Nat) (s : State), s.agenda = List.replicate k .tick →
    ∃ t, Host.Core.run Sys2Proof.core k s = .next t ∧ t.dt.toNat = s.dt.toNat - k ∧
      t.st.toNat = s.st.toNat - k ∧ t.agenda = [] ∧ t.run = s.run ∧ t.pc = s.pc

/-- R233, R234: the host's reads return the cells of the screen as they stand and whether `ST` is above
0, and change nothing. -/
def Obligations.HostReadsChangeNothing : Prop :=
  ∀ s : State, transact .snapshot s = .next s ∧ transact .readSound s = .next s ∧
    (∀ c : CellIx, Framebuffer.get s.snapshot c = s.getFb c) ∧ (s.soundOn = true ↔ s.st.toNat > 0)

/-! ## Reset -/

/-- `Reset(rom)` with an image of at most 3584 bytes, from any state: every field at its reset value, the
image from 0x200 on, the font at `FONT_BASE` and 0 everywhere else (decisions D5, D13).  The model's
own fields `agenda`, `turns` and `draws` go on (assumption log 1 and 2).  That an accepted image clears
the output `load_error` of R230 is the model's choice (log 5), and the canonical form of memory is the
model's own (log 22). -/
def Obligations.ResetRebuildsEveryField : Prop :=
  ∀ (rom : Rom) (s : State), rom.length ≤ 3584 →
    ∃ t, transact (.reset rom) s = .next t ∧
      (∀ r, t.getV r = 0) ∧ t.i = 0 ∧ t.pc = 0x200 ∧ t.sp.val = 0 ∧
      (∀ k : Fin 16, t.stack.get k = 0) ∧ t.dt = 0 ∧ t.st = 0 ∧
      (∀ c : CellIx, t.getFb c = false) ∧ (∀ k, t.getKey k = false) ∧ t.run = .running ∧
      t.loadError = false ∧ t.draws = s.draws ∧ t.turns = s.turns ∧ t.agenda = s.agenda ∧ t.mem.wf = true ∧
      (∀ (j : Nat) (h : j < rom.length), t.mem.read (0x200 + j) = rom[j]) ∧
      (∀ a, a < 80 → t.mem.read a = Params.font.getD a 0) ∧
      (∀ a, 80 ≤ a → (a < 0x200 ∨ 0x200 + rom.length ≤ a) → t.mem.read a = 0)

/-- An image over 3584 bytes is refused: `load_error` is reported and no field of the machine changes
(decision D13; the field that holds the report is the model's, assumption log 5). -/
def Obligations.OversizeImageIsRefused : Prop :=
  ∀ (rom : Rom) (s : State), 3584 < rom.length →
    ∃ t, transact (.reset rom) s = .next t ∧ t.loadError = true ∧ { t with loadError := s.loadError } = s

/-- The state after reset: the values of R36 for an empty image (decisions D5, D13 for the font and
`run`). -/
def Obligations.ResetStateValues : Prop :=
  (∀ r, State.reset.getV r = 0) ∧ State.reset.i = 0 ∧ State.reset.pc = 0x200 ∧
  State.reset.sp.val = 0 ∧ (∀ k : Fin 16, State.reset.stack.get k = 0) ∧ State.reset.dt = 0 ∧
  State.reset.st = 0 ∧ (∀ c : CellIx, State.reset.getFb c = false) ∧
  (∀ k, State.reset.getKey k = false) ∧ State.reset.run = .running ∧
  (∀ a, a < 80 → State.reset.mem.read a = Params.font.getD a 0) ∧
  (∀ a, 80 ≤ a → State.reset.mem.read a = 0)

/-! ## Rules of the whole machine -/

/-- While the machine is faulted, no step but an accepted reset changes anything beside `DT`, `ST` and
`key`: not the fault record, not `pc`, not a register, not memory (decision D12; the record of
the order, `agenda` and `turns`, and `load_error` are the model's own). -/
def Obligations.FaultedStateIsFrozen : Prop :=
  ∀ (s t : State) (rec : FaultRecord), s.run = .faulted rec → step s = .next t →
    (∃ rom, s.upcoming = .reset rom ∧ rom.length ≤ 3584) ∨
    t = { s with
      dt := t.dt, st := t.st, key := t.key, loadError := t.loadError,
      turns := t.turns, agenda := t.agenda }

/-- A wait for a key goes on, with the same register and `pc`, until a released key is pressed or a reset
is accepted: nothing else ends it (decision D9). -/
def Obligations.WaitEndsOnlyByPressOrReset : Prop :=
  ∀ (s t : State) (r : Reg), s.run = .waitKey r → step s = .next t →
    (∃ k, s.upcoming = .setKey k true ∧ s.getKey k = false) ∨
    (∃ rom, s.upcoming = .reset rom ∧ rom.length ≤ 3584) ∨
    (t.run = .waitKey r ∧ t.pc = s.pc ∧ ∀ x, t.getV x = s.getV x)

/-- Who writes what, over all instructions (10_state.md R31's table, R28, R29, 20_memory.md R51): if an
instruction changes a part of the state, it is one of the few the spec names for that part. -/
def Obligations.OnlyNamedInstructionsWriteEachPart : Prop :=
  ∀ (i : Instr) (s t : State), exec i s = .next t →
    t.key = s.key ∧ t.agenda = s.agenda ∧ t.turns = s.turns ∧ t.loadError = s.loadError ∧
    (t.i ≠ s.i → (∃ nnn, i = .ldIndex nnn) ∨ (∃ x, i = .addIndex x) ∨ ∃ x, i = .ldFont x) ∧
    (t.stack ≠ s.stack → ∃ nnn, i = .call nnn) ∧
    (t.sp ≠ s.sp → i = .ret ∨ ∃ nnn, i = .call nnn) ∧
    (t.dt ≠ s.dt → ∃ x, i = .ldDt x) ∧
    (t.st ≠ s.st → ∃ x, i = .ldSt x) ∧
    (t.fb ≠ s.fb → i = .cls ∨ ∃ x y n, i = .drw x y n) ∧
    (t.draws ≠ s.draws → ∃ x nn, i = .rnd x nn) ∧
    ((∃ a, t.mem.read a ≠ s.mem.read a) → (∃ x, i = .bcd x) ∨ ∃ x, i = .storeRegs x) ∧
    (t.run ≠ s.run → (∃ x, i = .ldKey x) ∨ ∃ rec, t.run = .faulted rec)

/-- VF is written as a side effect by 8xy4, 8xy5, 8xy6, 8xy7, 8xyE and Dxyn alone; every other
instruction that changes it names it as the destination (10_state.md R21; decision D20). -/
def Obligations.OnlySixInstructionsWriteTheFlag : Prop :=
  ∀ (i : Instr) (s t : State), exec i s = .next t → t.getV vf ≠ s.getV vf →
    (∃ x y, i = .addReg x y ∨ i = .sub x y ∨ i = .shr x y ∨ i = .subn x y ∨ i = .shl x y) ∨
    (∃ x y n, i = .drw x y n) ∨
    (∃ nn, i = .ldImm vf nn ∨ i = .addImm vf nn ∨ i = .rnd vf nn) ∨
    (∃ y, i = .ldReg vf y ∨ i = .orReg vf y ∨ i = .andReg vf y ∨ i = .xorReg vf y) ∨
    i = .ldFromDt vf ∨ i = .loadRegs vf

/-- A program that has reached a jump to itself stays there: the engine's `Step` changes nothing, so its
state is a fixed point (40_execution_step.md section 3; decision D2). -/
def Obligations.SelfJumpIsAFixedPoint : Prop :=
  ∀ s : State, s.finished → engineStep s = .next s ∧
    ∀ rest, s.agenda = .engine :: rest → step s = .next { s with agenda := rest }

/-! ## Invariants -/

/-- The invariant that `StepKeepsTheInvariant` is about holds after reset: the clauses of R37, and those
that rest on decisions D9 and D10 (assumption log 12, 10) and on the model's own memory form
(log 22). -/
def Obligations.ResetMeetsTheInvariant : Prop := Inv State.reset

/-- The invariant is kept by every step from every state that meets it.  From R37: every live stack entry
stays even and in 0x202 to 0x1000, `pc` stays at most 0x10FE.  Beside R37: a waiting Fx0A stays where
it can be fetched from, with `pc` at it during the wait, which is the spec's decision D9 (assumption
log 12); a fault record stays about its `pc`, which is decision D10 (log 10); memory stays in the
canonical form and inside its 4096 bytes, a form that is the model's own (log 22). -/
def Obligations.StepKeepsTheInvariant : Prop :=
  ∀ s t : State, Inv s → step s = .next t → Inv t

/-- Dead entries of the return stack cannot be observed: two states that agree in all else step to
states that agree in all else, however the dead entries differ (10_state.md section 4; decision
D21). -/
def Obligations.DeadStackEntriesAreUnobservable : Prop :=
  ∀ s s' t : State, SameButDeadEntries s s' → step s = .next t →
    ∃ t', step s' = .next t' ∧ SameButDeadEntries t t'

/-! ## Runs -/

/-- A run applies whole transactions in one total order: first those of the agenda, then, with the
agenda empty, the successive ones of the open order `Config.scheduled`, however many steps are taken.
Nothing is known of that order, so every interleaving of `Step`, `Tick` and the host's transactions,
endless ones too, is one of the runs (decision D2; assumption log 2); only the model's record of the
order tells the run from the transactions applied one after the other. -/
def Obligations.RunsFollowTheOpenOrder : Prop :=
  (∀ (k : Nat) (s : State), s.agenda = [] →
    ∃ t u, Host.Core.run Sys2Proof.core k s = .next t ∧
      transactAll ((List.range k).map fun j => Config.scheduled (s.turns + j)) s = .next u ∧
      t = { u with turns := s.turns + k }) ∧
  ∀ (s : State),
    ∃ t u, Host.Core.run Sys2Proof.core s.agenda.length s = .next t ∧
      transactAll s.agenda s = .next u ∧ t = { u with agenda := [] }
end

