-- ==== Sys2Proof/Laws/Encoding.lean ====
section
/-! SUPPORT. Words and their fields as numbers (spec/30_encoding.md R71), and that fields and
nibbles determine each other. -/

namespace Sys2Proof

theorem toNat_append_eq {n m : Nat} (a : BitVec n) (b : BitVec m) :
    (a ++ b).toNat = a.toNat * 2 ^ m + b.toNat := by
  rw [BitVec.toNat_append, ← Nat.shiftLeft_add_eq_or_of_lt b.isLt, Nat.shiftLeft_eq]

theorem wordOfNibbles_toNat (g x y n : BitVec 4) :
    (wordOfNibbles g x y n).toNat = g.toNat * 4096 + x.toNat * 256 + y.toNat * 16 + n.toNat := by
  unfold wordOfNibbles
  rw [toNat_append_eq, toNat_append_eq, toNat_append_eq]
  omega

theorem wordOfByte_toNat (g x : BitVec 4) (nn : Byte) :
    (wordOfByte g x nn).toNat = g.toNat * 4096 + x.toNat * 256 + nn.toNat := by
  unfold wordOfByte
  rw [toNat_append_eq, toNat_append_eq]
  omega

theorem wordOfAddr_toNat (g : BitVec 4) (nnn : BitVec 12) :
    (wordOfAddr g nnn).toNat = g.toNat * 4096 + nnn.toNat := by
  unfold wordOfAddr
  rw [toNat_append_eq]
  omega

/-! ## Fields as numbers -/

theorem fieldsOf_group_toNat (w : Word) : (fieldsOf w).group.toNat = w.toNat / 4096 := by
  have := w.isLt
  simp only [fieldsOf, BitVec.extractLsb'_toNat, Nat.shiftRight_eq_div_pow]
  omega

theorem fieldsOf_x_toNat (w : Word) : (fieldsOf w).x.toNat = w.toNat / 256 % 16 := by
  simp only [fieldsOf, BitVec.extractLsb'_toNat, Nat.shiftRight_eq_div_pow]

theorem fieldsOf_y_toNat (w : Word) : (fieldsOf w).y.toNat = w.toNat / 16 % 16 := by
  simp only [fieldsOf, BitVec.extractLsb'_toNat, Nat.shiftRight_eq_div_pow]

theorem fieldsOf_n_toNat (w : Word) : (fieldsOf w).n.toNat = w.toNat % 16 := by
  simp only [fieldsOf, BitVec.extractLsb'_toNat, Nat.shiftRight_zero]

theorem fieldsOf_nn_toNat (w : Word) : (fieldsOf w).nn.toNat = w.toNat % 256 := by
  simp only [fieldsOf, BitVec.extractLsb'_toNat, Nat.shiftRight_zero]

theorem fieldsOf_nnn_toNat (w : Word) : (fieldsOf w).nnn.toNat = w.toNat % 4096 := by
  simp only [fieldsOf, BitVec.extractLsb'_toNat, Nat.shiftRight_zero]

/-! ## Fields of a built word -/

theorem fieldsOf_wordOfNibbles (g x y n : BitVec 4) :
    fieldsOf (wordOfNibbles g x y n) =
      { group := g, x := x, y := y, n := n, nn := y ++ n, nnn := x ++ y ++ n } := by
  have hg := g.isLt; have hx := x.isLt; have hy := y.isLt; have hn := n.isLt
  rw [Fields.mk.injEq]
  refine ⟨?_, ?_, ?_, ?_, ?_, ?_⟩ <;> apply BitVec.eq_of_toNat_eq
  · rw [fieldsOf_group_toNat, wordOfNibbles_toNat]; omega
  · rw [fieldsOf_x_toNat, wordOfNibbles_toNat]; omega
  · rw [fieldsOf_y_toNat, wordOfNibbles_toNat]; omega
  · rw [fieldsOf_n_toNat, wordOfNibbles_toNat]; omega
  · rw [fieldsOf_nn_toNat, wordOfNibbles_toNat, toNat_append_eq]; omega
  · rw [fieldsOf_nnn_toNat, wordOfNibbles_toNat, toNat_append_eq, toNat_append_eq]; omega

theorem fieldsOf_wordOfByte (g x : BitVec 4) (nn : Byte) :
    (fieldsOf (wordOfByte g x nn)).group = g ∧ (fieldsOf (wordOfByte g x nn)).x = x ∧
      (fieldsOf (wordOfByte g x nn)).nn = nn := by
  have hg := g.isLt; have hx := x.isLt; have hn := nn.isLt
  refine ⟨?_, ?_, ?_⟩ <;> apply BitVec.eq_of_toNat_eq
  · rw [fieldsOf_group_toNat, wordOfByte_toNat]; omega
  · rw [fieldsOf_x_toNat, wordOfByte_toNat]; omega
  · rw [fieldsOf_nn_toNat, wordOfByte_toNat]; omega

theorem fieldsOf_wordOfAddr (g : BitVec 4) (nnn : BitVec 12) :
    (fieldsOf (wordOfAddr g nnn)).group = g ∧ (fieldsOf (wordOfAddr g nnn)).nnn = nnn := by
  have hg := g.isLt; have hn := nnn.isLt
  refine ⟨?_, ?_⟩ <;> apply BitVec.eq_of_toNat_eq
  · rw [fieldsOf_group_toNat, wordOfAddr_toNat]; omega
  · rw [fieldsOf_nnn_toNat, wordOfAddr_toNat]; omega

/-! ## A word from its fields -/

theorem wordOfNibbles_fieldsOf (w : Word) :
    wordOfNibbles (fieldsOf w).group (fieldsOf w).x (fieldsOf w).y (fieldsOf w).n = w := by
  apply BitVec.eq_of_toNat_eq
  rw [wordOfNibbles_toNat, fieldsOf_group_toNat, fieldsOf_x_toNat, fieldsOf_y_toNat,
    fieldsOf_n_toNat]
  omega

theorem wordOfByte_fieldsOf (w : Word) :
    wordOfByte (fieldsOf w).group (fieldsOf w).x (fieldsOf w).nn = w := by
  apply BitVec.eq_of_toNat_eq
  rw [wordOfByte_toNat, fieldsOf_group_toNat, fieldsOf_x_toNat, fieldsOf_nn_toNat]
  omega

theorem wordOfAddr_fieldsOf (w : Word) :
    wordOfAddr (fieldsOf w).group (fieldsOf w).nnn = w := by
  apply BitVec.eq_of_toNat_eq
  rw [wordOfAddr_toNat, fieldsOf_group_toNat, fieldsOf_nnn_toNat]
  omega

/-- The six fields of a word agree where they overlap (R71). -/
theorem fieldsOf_overlap (w : Word) :
    (fieldsOf w).nn = (fieldsOf w).y ++ (fieldsOf w).n ∧
      (fieldsOf w).nnn = (fieldsOf w).x ++ (fieldsOf w).nn := by
  constructor <;> apply BitVec.eq_of_toNat_eq
  · rw [toNat_append_eq, fieldsOf_nn_toNat, fieldsOf_y_toNat, fieldsOf_n_toNat]; omega
  · rw [toNat_append_eq, fieldsOf_nnn_toNat, fieldsOf_x_toNat, fieldsOf_nn_toNat]; omega

/-! ## Register fields -/

@[simp] theorem regOf_regBits (r : Reg) : regOf (regBits r) = r := rfl

@[simp] theorem regBits_regOf (b : BitVec 4) : regBits (regOf b) = b := rfl

@[simp] theorem regBits_toNat (r : Reg) : (regBits r).toNat = r.val := rfl

end Sys2Proof
end

