-- ==== Sys2Proof/Laws/State.lean ====
section
/-! SUPPORT. One lemma for each field and each update of the state, and what each shared operation
over the state's own fields can do. -/

namespace Sys2Proof.Machine

/-! ## Fields after an update -/

/-! ### setV -/

@[simp] theorem State.setV_i (s : State) (r : Reg) (b : Byte) : (s.setV r b).i = s.i := rfl
@[simp] theorem State.setV_pc (s : State) (r : Reg) (b : Byte) : (s.setV r b).pc = s.pc := rfl
@[simp] theorem State.setV_stack (s : State) (r : Reg) (b : Byte) : (s.setV r b).stack = s.stack := rfl
@[simp] theorem State.setV_sp (s : State) (r : Reg) (b : Byte) : (s.setV r b).sp = s.sp := rfl
@[simp] theorem State.setV_dt (s : State) (r : Reg) (b : Byte) : (s.setV r b).dt = s.dt := rfl
@[simp] theorem State.setV_st (s : State) (r : Reg) (b : Byte) : (s.setV r b).st = s.st := rfl
@[simp] theorem State.setV_fb (s : State) (r : Reg) (b : Byte) : (s.setV r b).fb = s.fb := rfl
@[simp] theorem State.setV_key (s : State) (r : Reg) (b : Byte) : (s.setV r b).key = s.key := rfl
@[simp] theorem State.setV_mem (s : State) (r : Reg) (b : Byte) : (s.setV r b).mem = s.mem := rfl
@[simp] theorem State.setV_run (s : State) (r : Reg) (b : Byte) : (s.setV r b).run = s.run := rfl
@[simp] theorem State.setV_loadError (s : State) (r : Reg) (b : Byte) : (s.setV r b).loadError = s.loadError := rfl
@[simp] theorem State.setV_draws (s : State) (r : Reg) (b : Byte) : (s.setV r b).draws = s.draws := rfl
@[simp] theorem State.setV_turns (s : State) (r : Reg) (b : Byte) : (s.setV r b).turns = s.turns := rfl
@[simp] theorem State.setV_agenda (s : State) (r : Reg) (b : Byte) : (s.setV r b).agenda = s.agenda := rfl

/-! ### setI -/

@[simp] theorem State.setI_v (s : State) (w : Word) : (s.setI w).v = s.v := rfl
@[simp] theorem State.setI_i (s : State) (w : Word) : (s.setI w).i = w := rfl
@[simp] theorem State.setI_pc (s : State) (w : Word) : (s.setI w).pc = s.pc := rfl
@[simp] theorem State.setI_stack (s : State) (w : Word) : (s.setI w).stack = s.stack := rfl
@[simp] theorem State.setI_sp (s : State) (w : Word) : (s.setI w).sp = s.sp := rfl
@[simp] theorem State.setI_dt (s : State) (w : Word) : (s.setI w).dt = s.dt := rfl
@[simp] theorem State.setI_st (s : State) (w : Word) : (s.setI w).st = s.st := rfl
@[simp] theorem State.setI_fb (s : State) (w : Word) : (s.setI w).fb = s.fb := rfl
@[simp] theorem State.setI_key (s : State) (w : Word) : (s.setI w).key = s.key := rfl
@[simp] theorem State.setI_mem (s : State) (w : Word) : (s.setI w).mem = s.mem := rfl
@[simp] theorem State.setI_run (s : State) (w : Word) : (s.setI w).run = s.run := rfl
@[simp] theorem State.setI_loadError (s : State) (w : Word) : (s.setI w).loadError = s.loadError := rfl
@[simp] theorem State.setI_draws (s : State) (w : Word) : (s.setI w).draws = s.draws := rfl
@[simp] theorem State.setI_turns (s : State) (w : Word) : (s.setI w).turns = s.turns := rfl
@[simp] theorem State.setI_agenda (s : State) (w : Word) : (s.setI w).agenda = s.agenda := rfl

/-! ### setPc -/

@[simp] theorem State.setPc_v (s : State) (w : Word) : (s.setPc w).v = s.v := rfl
@[simp] theorem State.setPc_i (s : State) (w : Word) : (s.setPc w).i = s.i := rfl
@[simp] theorem State.setPc_pc (s : State) (w : Word) : (s.setPc w).pc = w := rfl
@[simp] theorem State.setPc_stack (s : State) (w : Word) : (s.setPc w).stack = s.stack := rfl
@[simp] theorem State.setPc_sp (s : State) (w : Word) : (s.setPc w).sp = s.sp := rfl
@[simp] theorem State.setPc_dt (s : State) (w : Word) : (s.setPc w).dt = s.dt := rfl
@[simp] theorem State.setPc_st (s : State) (w : Word) : (s.setPc w).st = s.st := rfl
@[simp] theorem State.setPc_fb (s : State) (w : Word) : (s.setPc w).fb = s.fb := rfl
@[simp] theorem State.setPc_key (s : State) (w : Word) : (s.setPc w).key = s.key := rfl
@[simp] theorem State.setPc_mem (s : State) (w : Word) : (s.setPc w).mem = s.mem := rfl
@[simp] theorem State.setPc_run (s : State) (w : Word) : (s.setPc w).run = s.run := rfl
@[simp] theorem State.setPc_loadError (s : State) (w : Word) : (s.setPc w).loadError = s.loadError := rfl
@[simp] theorem State.setPc_draws (s : State) (w : Word) : (s.setPc w).draws = s.draws := rfl
@[simp] theorem State.setPc_turns (s : State) (w : Word) : (s.setPc w).turns = s.turns := rfl
@[simp] theorem State.setPc_agenda (s : State) (w : Word) : (s.setPc w).agenda = s.agenda := rfl

/-! ### setDt -/

@[simp] theorem State.setDt_v (s : State) (b : Byte) : (s.setDt b).v = s.v := rfl
@[simp] theorem State.setDt_i (s : State) (b : Byte) : (s.setDt b).i = s.i := rfl
@[simp] theorem State.setDt_pc (s : State) (b : Byte) : (s.setDt b).pc = s.pc := rfl
@[simp] theorem State.setDt_stack (s : State) (b : Byte) : (s.setDt b).stack = s.stack := rfl
@[simp] theorem State.setDt_sp (s : State) (b : Byte) : (s.setDt b).sp = s.sp := rfl
@[simp] theorem State.setDt_dt (s : State) (b : Byte) : (s.setDt b).dt = b := rfl
@[simp] theorem State.setDt_st (s : State) (b : Byte) : (s.setDt b).st = s.st := rfl
@[simp] theorem State.setDt_fb (s : State) (b : Byte) : (s.setDt b).fb = s.fb := rfl
@[simp] theorem State.setDt_key (s : State) (b : Byte) : (s.setDt b).key = s.key := rfl
@[simp] theorem State.setDt_mem (s : State) (b : Byte) : (s.setDt b).mem = s.mem := rfl
@[simp] theorem State.setDt_run (s : State) (b : Byte) : (s.setDt b).run = s.run := rfl
@[simp] theorem State.setDt_loadError (s : State) (b : Byte) : (s.setDt b).loadError = s.loadError := rfl
@[simp] theorem State.setDt_draws (s : State) (b : Byte) : (s.setDt b).draws = s.draws := rfl
@[simp] theorem State.setDt_turns (s : State) (b : Byte) : (s.setDt b).turns = s.turns := rfl
@[simp] theorem State.setDt_agenda (s : State) (b : Byte) : (s.setDt b).agenda = s.agenda := rfl

/-! ### setSt -/

@[simp] theorem State.setSt_v (s : State) (b : Byte) : (s.setSt b).v = s.v := rfl
@[simp] theorem State.setSt_i (s : State) (b : Byte) : (s.setSt b).i = s.i := rfl
@[simp] theorem State.setSt_pc (s : State) (b : Byte) : (s.setSt b).pc = s.pc := rfl
@[simp] theorem State.setSt_stack (s : State) (b : Byte) : (s.setSt b).stack = s.stack := rfl
@[simp] theorem State.setSt_sp (s : State) (b : Byte) : (s.setSt b).sp = s.sp := rfl
@[simp] theorem State.setSt_dt (s : State) (b : Byte) : (s.setSt b).dt = s.dt := rfl
@[simp] theorem State.setSt_st (s : State) (b : Byte) : (s.setSt b).st = b := rfl
@[simp] theorem State.setSt_fb (s : State) (b : Byte) : (s.setSt b).fb = s.fb := rfl
@[simp] theorem State.setSt_key (s : State) (b : Byte) : (s.setSt b).key = s.key := rfl
@[simp] theorem State.setSt_mem (s : State) (b : Byte) : (s.setSt b).mem = s.mem := rfl
@[simp] theorem State.setSt_run (s : State) (b : Byte) : (s.setSt b).run = s.run := rfl
@[simp] theorem State.setSt_loadError (s : State) (b : Byte) : (s.setSt b).loadError = s.loadError := rfl
@[simp] theorem State.setSt_draws (s : State) (b : Byte) : (s.setSt b).draws = s.draws := rfl
@[simp] theorem State.setSt_turns (s : State) (b : Byte) : (s.setSt b).turns = s.turns := rfl
@[simp] theorem State.setSt_agenda (s : State) (b : Byte) : (s.setSt b).agenda = s.agenda := rfl

/-! ### setFb -/

@[simp] theorem State.setFb_v (s : State) (f : Framebuffer) : (s.setFb f).v = s.v := rfl
@[simp] theorem State.setFb_i (s : State) (f : Framebuffer) : (s.setFb f).i = s.i := rfl
@[simp] theorem State.setFb_pc (s : State) (f : Framebuffer) : (s.setFb f).pc = s.pc := rfl
@[simp] theorem State.setFb_stack (s : State) (f : Framebuffer) : (s.setFb f).stack = s.stack := rfl
@[simp] theorem State.setFb_sp (s : State) (f : Framebuffer) : (s.setFb f).sp = s.sp := rfl
@[simp] theorem State.setFb_dt (s : State) (f : Framebuffer) : (s.setFb f).dt = s.dt := rfl
@[simp] theorem State.setFb_st (s : State) (f : Framebuffer) : (s.setFb f).st = s.st := rfl
@[simp] theorem State.setFb_fb (s : State) (f : Framebuffer) : (s.setFb f).fb = f := rfl
@[simp] theorem State.setFb_key (s : State) (f : Framebuffer) : (s.setFb f).key = s.key := rfl
@[simp] theorem State.setFb_mem (s : State) (f : Framebuffer) : (s.setFb f).mem = s.mem := rfl
@[simp] theorem State.setFb_run (s : State) (f : Framebuffer) : (s.setFb f).run = s.run := rfl
@[simp] theorem State.setFb_loadError (s : State) (f : Framebuffer) : (s.setFb f).loadError = s.loadError := rfl
@[simp] theorem State.setFb_draws (s : State) (f : Framebuffer) : (s.setFb f).draws = s.draws := rfl
@[simp] theorem State.setFb_turns (s : State) (f : Framebuffer) : (s.setFb f).turns = s.turns := rfl
@[simp] theorem State.setFb_agenda (s : State) (f : Framebuffer) : (s.setFb f).agenda = s.agenda := rfl

/-! ### setMem -/

@[simp] theorem State.setMem_v (s : State) (m : Memory) : (s.setMem m).v = s.v := rfl
@[simp] theorem State.setMem_i (s : State) (m : Memory) : (s.setMem m).i = s.i := rfl
@[simp] theorem State.setMem_pc (s : State) (m : Memory) : (s.setMem m).pc = s.pc := rfl
@[simp] theorem State.setMem_stack (s : State) (m : Memory) : (s.setMem m).stack = s.stack := rfl
@[simp] theorem State.setMem_sp (s : State) (m : Memory) : (s.setMem m).sp = s.sp := rfl
@[simp] theorem State.setMem_dt (s : State) (m : Memory) : (s.setMem m).dt = s.dt := rfl
@[simp] theorem State.setMem_st (s : State) (m : Memory) : (s.setMem m).st = s.st := rfl
@[simp] theorem State.setMem_fb (s : State) (m : Memory) : (s.setMem m).fb = s.fb := rfl
@[simp] theorem State.setMem_key (s : State) (m : Memory) : (s.setMem m).key = s.key := rfl
@[simp] theorem State.setMem_mem (s : State) (m : Memory) : (s.setMem m).mem = m := rfl
@[simp] theorem State.setMem_run (s : State) (m : Memory) : (s.setMem m).run = s.run := rfl
@[simp] theorem State.setMem_loadError (s : State) (m : Memory) : (s.setMem m).loadError = s.loadError := rfl
@[simp] theorem State.setMem_draws (s : State) (m : Memory) : (s.setMem m).draws = s.draws := rfl
@[simp] theorem State.setMem_turns (s : State) (m : Memory) : (s.setMem m).turns = s.turns := rfl
@[simp] theorem State.setMem_agenda (s : State) (m : Memory) : (s.setMem m).agenda = s.agenda := rfl

/-! ### setRun -/

@[simp] theorem State.setRun_v (s : State) (r : RunState) : (s.setRun r).v = s.v := rfl
@[simp] theorem State.setRun_i (s : State) (r : RunState) : (s.setRun r).i = s.i := rfl
@[simp] theorem State.setRun_pc (s : State) (r : RunState) : (s.setRun r).pc = s.pc := rfl
@[simp] theorem State.setRun_stack (s : State) (r : RunState) : (s.setRun r).stack = s.stack := rfl
@[simp] theorem State.setRun_sp (s : State) (r : RunState) : (s.setRun r).sp = s.sp := rfl
@[simp] theorem State.setRun_dt (s : State) (r : RunState) : (s.setRun r).dt = s.dt := rfl
@[simp] theorem State.setRun_st (s : State) (r : RunState) : (s.setRun r).st = s.st := rfl
@[simp] theorem State.setRun_fb (s : State) (r : RunState) : (s.setRun r).fb = s.fb := rfl
@[simp] theorem State.setRun_key (s : State) (r : RunState) : (s.setRun r).key = s.key := rfl
@[simp] theorem State.setRun_mem (s : State) (r : RunState) : (s.setRun r).mem = s.mem := rfl
@[simp] theorem State.setRun_run (s : State) (r : RunState) : (s.setRun r).run = r := rfl
@[simp] theorem State.setRun_loadError (s : State) (r : RunState) : (s.setRun r).loadError = s.loadError := rfl
@[simp] theorem State.setRun_draws (s : State) (r : RunState) : (s.setRun r).draws = s.draws := rfl
@[simp] theorem State.setRun_turns (s : State) (r : RunState) : (s.setRun r).turns = s.turns := rfl
@[simp] theorem State.setRun_agenda (s : State) (r : RunState) : (s.setRun r).agenda = s.agenda := rfl

/-! ### setKeyBit -/

@[simp] theorem State.setKeyBit_v (s : State) (k : KeyIx) (b : Bool) : (s.setKeyBit k b).v = s.v := rfl
@[simp] theorem State.setKeyBit_i (s : State) (k : KeyIx) (b : Bool) : (s.setKeyBit k b).i = s.i := rfl
@[simp] theorem State.setKeyBit_pc (s : State) (k : KeyIx) (b : Bool) : (s.setKeyBit k b).pc = s.pc := rfl
@[simp] theorem State.setKeyBit_stack (s : State) (k : KeyIx) (b : Bool) : (s.setKeyBit k b).stack = s.stack := rfl
@[simp] theorem State.setKeyBit_sp (s : State) (k : KeyIx) (b : Bool) : (s.setKeyBit k b).sp = s.sp := rfl
@[simp] theorem State.setKeyBit_dt (s : State) (k : KeyIx) (b : Bool) : (s.setKeyBit k b).dt = s.dt := rfl
@[simp] theorem State.setKeyBit_st (s : State) (k : KeyIx) (b : Bool) : (s.setKeyBit k b).st = s.st := rfl
@[simp] theorem State.setKeyBit_fb (s : State) (k : KeyIx) (b : Bool) : (s.setKeyBit k b).fb = s.fb := rfl
@[simp] theorem State.setKeyBit_mem (s : State) (k : KeyIx) (b : Bool) : (s.setKeyBit k b).mem = s.mem := rfl
@[simp] theorem State.setKeyBit_run (s : State) (k : KeyIx) (b : Bool) : (s.setKeyBit k b).run = s.run := rfl
@[simp] theorem State.setKeyBit_loadError (s : State) (k : KeyIx) (b : Bool) : (s.setKeyBit k b).loadError = s.loadError := rfl
@[simp] theorem State.setKeyBit_draws (s : State) (k : KeyIx) (b : Bool) : (s.setKeyBit k b).draws = s.draws := rfl
@[simp] theorem State.setKeyBit_turns (s : State) (k : KeyIx) (b : Bool) : (s.setKeyBit k b).turns = s.turns := rfl
@[simp] theorem State.setKeyBit_agenda (s : State) (k : KeyIx) (b : Bool) : (s.setKeyBit k b).agenda = s.agenda := rfl

/-! ### setAgenda -/

@[simp] theorem State.setAgenda_v (s : State) (l : List Transaction) : (s.setAgenda l).v = s.v := rfl
@[simp] theorem State.setAgenda_i (s : State) (l : List Transaction) : (s.setAgenda l).i = s.i := rfl
@[simp] theorem State.setAgenda_pc (s : State) (l : List Transaction) : (s.setAgenda l).pc = s.pc := rfl
@[simp] theorem State.setAgenda_stack (s : State) (l : List Transaction) : (s.setAgenda l).stack = s.stack := rfl
@[simp] theorem State.setAgenda_sp (s : State) (l : List Transaction) : (s.setAgenda l).sp = s.sp := rfl
@[simp] theorem State.setAgenda_dt (s : State) (l : List Transaction) : (s.setAgenda l).dt = s.dt := rfl
@[simp] theorem State.setAgenda_st (s : State) (l : List Transaction) : (s.setAgenda l).st = s.st := rfl
@[simp] theorem State.setAgenda_fb (s : State) (l : List Transaction) : (s.setAgenda l).fb = s.fb := rfl
@[simp] theorem State.setAgenda_key (s : State) (l : List Transaction) : (s.setAgenda l).key = s.key := rfl
@[simp] theorem State.setAgenda_mem (s : State) (l : List Transaction) : (s.setAgenda l).mem = s.mem := rfl
@[simp] theorem State.setAgenda_run (s : State) (l : List Transaction) : (s.setAgenda l).run = s.run := rfl
@[simp] theorem State.setAgenda_loadError (s : State) (l : List Transaction) : (s.setAgenda l).loadError = s.loadError := rfl
@[simp] theorem State.setAgenda_draws (s : State) (l : List Transaction) : (s.setAgenda l).draws = s.draws := rfl
@[simp] theorem State.setAgenda_turns (s : State) (l : List Transaction) : (s.setAgenda l).turns = s.turns := rfl
@[simp] theorem State.setAgenda_agenda (s : State) (l : List Transaction) : (s.setAgenda l).agenda = l := rfl

/-! ### countTurn -/

@[simp] theorem State.countTurn_v (s : State) : s.countTurn.v = s.v := rfl
@[simp] theorem State.countTurn_i (s : State) : s.countTurn.i = s.i := rfl
@[simp] theorem State.countTurn_pc (s : State) : s.countTurn.pc = s.pc := rfl
@[simp] theorem State.countTurn_stack (s : State) : s.countTurn.stack = s.stack := rfl
@[simp] theorem State.countTurn_sp (s : State) : s.countTurn.sp = s.sp := rfl
@[simp] theorem State.countTurn_dt (s : State) : s.countTurn.dt = s.dt := rfl
@[simp] theorem State.countTurn_st (s : State) : s.countTurn.st = s.st := rfl
@[simp] theorem State.countTurn_fb (s : State) : s.countTurn.fb = s.fb := rfl
@[simp] theorem State.countTurn_key (s : State) : s.countTurn.key = s.key := rfl
@[simp] theorem State.countTurn_mem (s : State) : s.countTurn.mem = s.mem := rfl
@[simp] theorem State.countTurn_run (s : State) : s.countTurn.run = s.run := rfl
@[simp] theorem State.countTurn_loadError (s : State) : s.countTurn.loadError = s.loadError := rfl
@[simp] theorem State.countTurn_draws (s : State) : s.countTurn.draws = s.draws := rfl
@[simp] theorem State.countTurn_turns (s : State) : s.countTurn.turns = s.turns + 1 := rfl
@[simp] theorem State.countTurn_agenda (s : State) : s.countTurn.agenda = s.agenda := rfl

/-! ### countDraw -/

@[simp] theorem State.countDraw_v (s : State) : s.countDraw.v = s.v := rfl
@[simp] theorem State.countDraw_i (s : State) : s.countDraw.i = s.i := rfl
@[simp] theorem State.countDraw_pc (s : State) : s.countDraw.pc = s.pc := rfl
@[simp] theorem State.countDraw_stack (s : State) : s.countDraw.stack = s.stack := rfl
@[simp] theorem State.countDraw_sp (s : State) : s.countDraw.sp = s.sp := rfl
@[simp] theorem State.countDraw_dt (s : State) : s.countDraw.dt = s.dt := rfl
@[simp] theorem State.countDraw_st (s : State) : s.countDraw.st = s.st := rfl
@[simp] theorem State.countDraw_fb (s : State) : s.countDraw.fb = s.fb := rfl
@[simp] theorem State.countDraw_key (s : State) : s.countDraw.key = s.key := rfl
@[simp] theorem State.countDraw_mem (s : State) : s.countDraw.mem = s.mem := rfl
@[simp] theorem State.countDraw_run (s : State) : s.countDraw.run = s.run := rfl
@[simp] theorem State.countDraw_loadError (s : State) : s.countDraw.loadError = s.loadError := rfl
@[simp] theorem State.countDraw_draws (s : State) : s.countDraw.draws = s.draws + 1 := rfl
@[simp] theorem State.countDraw_turns (s : State) : s.countDraw.turns = s.turns := rfl
@[simp] theorem State.countDraw_agenda (s : State) : s.countDraw.agenda = s.agenda := rfl

/-! ### advance -/

@[simp] theorem State.advance_v (s : State) : s.advance.v = s.v := rfl
@[simp] theorem State.advance_i (s : State) : s.advance.i = s.i := rfl
@[simp] theorem State.advance_pc (s : State) : s.advance.pc = s.pc + 2 := rfl
@[simp] theorem State.advance_stack (s : State) : s.advance.stack = s.stack := rfl
@[simp] theorem State.advance_sp (s : State) : s.advance.sp = s.sp := rfl
@[simp] theorem State.advance_dt (s : State) : s.advance.dt = s.dt := rfl
@[simp] theorem State.advance_st (s : State) : s.advance.st = s.st := rfl
@[simp] theorem State.advance_fb (s : State) : s.advance.fb = s.fb := rfl
@[simp] theorem State.advance_key (s : State) : s.advance.key = s.key := rfl
@[simp] theorem State.advance_mem (s : State) : s.advance.mem = s.mem := rfl
@[simp] theorem State.advance_run (s : State) : s.advance.run = s.run := rfl
@[simp] theorem State.advance_loadError (s : State) : s.advance.loadError = s.loadError := rfl
@[simp] theorem State.advance_draws (s : State) : s.advance.draws = s.draws := rfl
@[simp] theorem State.advance_turns (s : State) : s.advance.turns = s.turns := rfl
@[simp] theorem State.advance_agenda (s : State) : s.advance.agenda = s.agenda := rfl

/-! ### skipIf -/

@[simp] theorem State.skipIf_v (s : State) (c : Bool) : (s.skipIf c).v = s.v := rfl
@[simp] theorem State.skipIf_i (s : State) (c : Bool) : (s.skipIf c).i = s.i := rfl
@[simp] theorem State.skipIf_pc (s : State) (c : Bool) : (s.skipIf c).pc = if c then s.pc + 4 else s.pc + 2 := rfl
@[simp] theorem State.skipIf_stack (s : State) (c : Bool) : (s.skipIf c).stack = s.stack := rfl
@[simp] theorem State.skipIf_sp (s : State) (c : Bool) : (s.skipIf c).sp = s.sp := rfl
@[simp] theorem State.skipIf_dt (s : State) (c : Bool) : (s.skipIf c).dt = s.dt := rfl
@[simp] theorem State.skipIf_st (s : State) (c : Bool) : (s.skipIf c).st = s.st := rfl
@[simp] theorem State.skipIf_fb (s : State) (c : Bool) : (s.skipIf c).fb = s.fb := rfl
@[simp] theorem State.skipIf_key (s : State) (c : Bool) : (s.skipIf c).key = s.key := rfl
@[simp] theorem State.skipIf_mem (s : State) (c : Bool) : (s.skipIf c).mem = s.mem := rfl
@[simp] theorem State.skipIf_run (s : State) (c : Bool) : (s.skipIf c).run = s.run := rfl
@[simp] theorem State.skipIf_loadError (s : State) (c : Bool) : (s.skipIf c).loadError = s.loadError := rfl
@[simp] theorem State.skipIf_draws (s : State) (c : Bool) : (s.skipIf c).draws = s.draws := rfl
@[simp] theorem State.skipIf_turns (s : State) (c : Bool) : (s.skipIf c).turns = s.turns := rfl
@[simp] theorem State.skipIf_agenda (s : State) (c : Bool) : (s.skipIf c).agenda = s.agenda := rfl

/-! ## Reading a register after an update that writes none -/

@[simp] theorem State.getV_setI (s : State) (w : Word) (x : Reg) : (s.setI w).getV x = s.getV x := rfl
@[simp] theorem State.getV_setPc (s : State) (w : Word) (x : Reg) : (s.setPc w).getV x = s.getV x := rfl
@[simp] theorem State.getV_setDt (s : State) (b : Byte) (x : Reg) : (s.setDt b).getV x = s.getV x := rfl
@[simp] theorem State.getV_setSt (s : State) (b : Byte) (x : Reg) : (s.setSt b).getV x = s.getV x := rfl
@[simp] theorem State.getV_setFb (s : State) (f : Framebuffer) (x : Reg) : (s.setFb f).getV x = s.getV x := rfl
@[simp] theorem State.getV_setMem (s : State) (m : Memory) (x : Reg) : (s.setMem m).getV x = s.getV x := rfl
@[simp] theorem State.getV_setRun (s : State) (q : RunState) (x : Reg) : (s.setRun q).getV x = s.getV x := rfl
@[simp] theorem State.getV_setKeyBit (s : State) (k : KeyIx) (b : Bool) (x : Reg) : (s.setKeyBit k b).getV x = s.getV x := rfl
@[simp] theorem State.getV_setAgenda (s : State) (l : List Transaction) (x : Reg) : (s.setAgenda l).getV x = s.getV x := rfl
@[simp] theorem State.getV_countTurn (s : State) (x : Reg) : s.countTurn.getV x = s.getV x := rfl
@[simp] theorem State.getV_countDraw (s : State) (x : Reg) : s.countDraw.getV x = s.getV x := rfl
@[simp] theorem State.getV_advance (s : State) (x : Reg) : s.advance.getV x = s.getV x := rfl
@[simp] theorem State.getV_skipIf (s : State) (c : Bool) (x : Reg) : (s.skipIf c).getV x = s.getV x := rfl

/-! ## Registers -/

theorem State.getV_setV (s : State) (x y : Reg) (b : Byte) :
    (s.setV x b).getV y = if y = x then b else s.getV y := by
  simp only [State.getV, State.setV, Vector.get_eq_getElem]
  rw [Vector.getElem_set]
  by_cases h : y = x
  · simp [h]
  · have : ¬ x.val = y.val := fun e => h (Fin.ext e.symm)
    simp [h, this]

@[simp] theorem State.getV_setV_same (s : State) (x : Reg) (b : Byte) : (s.setV x b).getV x = b := by
  simp [State.getV_setV]

theorem State.getV_setV_of_ne (s : State) {x y : Reg} (b : Byte) (h : y ≠ x) :
    (s.setV x b).getV y = s.getV y := by
  simp [State.getV_setV, h]

/-- The register a result-and-flag write leaves in VF and in `V[x]`, for either order (R132). -/
theorem State.getV_setVAndFlag (s : State) (o : WriteOrder) (x y : Reg) (result flag : Byte) :
    (s.setVAndFlag o x result flag).getV y =
      match o with
      | .resultThenFlag => if y = vf then flag else if y = x then result else s.getV y
      | .flagThenResult => if y = x then result else if y = vf then flag else s.getV y := by
  cases o <;> simp [State.setVAndFlag, State.getV_setV]

/-- A result-and-flag write changes registers only. -/
theorem State.setVAndFlag_eq (s : State) (o : WriteOrder) (x : Reg) (result flag : Byte) :
    s.setVAndFlag o x result flag = { s with v := (s.setVAndFlag o x result flag).v } := by
  cases o <;> rfl

/-- Registers loaded in ascending order change registers only. -/
theorem State.setVs_eq (s : State) (r : Nat) (bs : List Byte) :
    s.setVs r bs = { s with v := (s.setVs r bs).v } := by
  induction bs generalizing s r with
  | nil => rfl
  | cons b bs ih => rw [State.setVs, ih]

/-- Registers `r`, `r + 1`, ... take the bytes; the others keep their values (R156). -/
theorem State.getV_setVs (s : State) (r : Nat) (bs : List Byte) (y : Reg) :
    (s.setVs r bs).getV y =
      if h : r ≤ y.val ∧ y.val < r + bs.length then bs[y.val - r] else s.getV y := by
  induction bs generalizing s r with
  | nil => simp [State.setVs]
  | cons b bs ih =>
    rw [State.setVs, ih]
    by_cases h1 : r + 1 ≤ y.val ∧ y.val < r + 1 + bs.length
    · have h2 : r ≤ y.val ∧ y.val < r + (b :: bs).length := by simp; omega
      rw [dif_pos h1, dif_pos h2]
      have : y.val - r = (y.val - (r + 1)) + 1 := by omega
      simp [this]
    · rw [dif_neg h1]
      by_cases h3 : y.val = r
      · have h2 : r ≤ y.val ∧ y.val < r + (b :: bs).length := by simp; omega
        have hlt : r < 16 := by omega
        rw [dif_pos h2]
        simp [State.getV, Vector.get_eq_getElem, h3]
      · have h2 : ¬(r ≤ y.val ∧ y.val < r + (b :: bs).length) := by simp at h1 ⊢; omega
        have h4 : ¬ r = y.val := fun e => h3 e.symm
        rw [dif_neg h2]
        simp [State.getV, Vector.get_eq_getElem, h4]

/-- `V[0]` to `V[x]` as a list (R155). -/
theorem regsUpTo_length (s : State) (x : Reg) : (regsUpTo s x).length = x.val + 1 := by
  simp [regsUpTo]

theorem regsUpTo_getElem (s : State) (x : Reg) (k : Nat) (h : k < (regsUpTo s x).length)
    (hk : k < 16) : (regsUpTo s x)[k] = s.getV ⟨k, hk⟩ := by
  simp [regsUpTo, State.getV, Vector.get_eq_getElem]

/-! ## Keys -/

theorem State.getKey_setKeyBit (s : State) (k j : KeyIx) (b : Bool) :
    (s.setKeyBit k b).getKey j = if j = k then b else s.getKey j := by
  simp only [State.getKey, State.setKeyBit, Vector.get_eq_getElem]
  rw [Vector.getElem_set]
  by_cases h : j = k
  · simp [h]
  · have : ¬ k.val = j.val := fun e => h (Fin.ext e.symm)
    simp [h, this]

/-! ## The return stack -/

/-- A push that succeeds (R26). -/
theorem State.push_eq_some {s t : State} {w : Word} (h : s.push w = some t) :
    ∃ hlt : s.sp.val < 16,
      t = { s with stack := s.stack.set s.sp.val w, sp := ⟨s.sp.val + 1, by omega⟩ } := by
  unfold State.push at h
  split at h
  · next hlt => exact ⟨hlt, by simpa using h.symm⟩
  · simp at h

/-- A push fails exactly on a full stack (R26). -/
theorem State.push_eq_none {s : State} {w : Word} : s.push w = none ↔ s.sp.val = 16 := by
  unfold State.push
  split <;> simp <;> omega

/-- A pop that succeeds (R26). -/
theorem State.pop_eq_some {s t : State} {w : Word} (h : s.pop = some (w, t)) :
    ∃ hlt : 0 < s.sp.val, w = s.stack[s.sp.val - 1]'(by omega) ∧
      t = { s with sp := ⟨s.sp.val - 1, by omega⟩ } := by
  unfold State.pop at h
  split at h
  · next hlt => simp only [Option.some.injEq, Prod.mk.injEq] at h; exact ⟨hlt, h.1.symm, h.2.symm⟩
  · simp at h

/-- A pop fails exactly on an empty stack (R26). -/
theorem State.pop_eq_none {s : State} : s.pop = none ↔ s.sp.val = 0 := by
  unfold State.pop
  split <;> simp <;> omega

/-! ## Frames -/

/-- Nothing changed: the frame of an instruction that writes only `pc`. -/
theorem Frame.setPc (s : State) (w : Word) : Frame [] [] [] s (s.setPc w) := by
  constructor <;> simp

/-- A frame does not see a change of `pc` after it. -/
theorem Frame.then_setPc {regs : List Reg} {parts : List Part} {bytes : List Nat} {s t : State}
    (h : Frame regs parts bytes s t) (w : Word) : Frame regs parts bytes s (t.setPc w) :=
  ⟨h.regs, h.index, h.stack, h.delay, h.sound, h.screen, h.keys, h.run, h.draws, h.mem,
    h.loadError, h.turns, h.agenda⟩

/-- A frame does not see the advance to the next instruction. -/
theorem Frame.then_advance {regs : List Reg} {parts : List Part} {bytes : List Nat} {s t : State}
    (h : Frame regs parts bytes s t) : Frame regs parts bytes s t.advance := h.then_setPc _

/-- A change of registers only has the frame of the registers it changes. -/
theorem Frame.of_regs {regs : List Reg} {s : State} {v : Vector Byte 16}
    (h : ∀ r, r ∉ regs → v.get r = s.v.get r) : Frame regs [] [] s { s with v := v } := by
  constructor <;> (simp [State.getV]; try assumption)

/-- A change of memory only has the frame of the bytes it changes. -/
theorem Frame.of_mem {bytes : List Nat} {s : State} {m : Memory}
    (h : ∀ a, a ∉ bytes → m.read a = s.mem.read a) : Frame [] [] bytes s (s.setMem m) := by
  constructor <;> (simp; try assumption)

end Sys2Proof.Machine
end

