-- ==== Sys2Proof/Laws/Memory.lean ====
section
/-! SUPPORT. What the memory operations do (spec/20_memory.md R59: a read returns the last value
written), and that every one of them keeps the canonical form. -/

namespace Sys2Proof.Machine
open Sys2Proof.Config

/-! ## Reading after a write -/

theorem Memory.read_erase (m : Memory) (a c : Nat) :
    (Memory.erase m a).read c = if c = a then initByte a else Memory.read m c := by
  induction m with
  | nil => by_cases h : c = a <;> simp [Memory.erase, Memory.read, h]
  | cons e rest ih =>
    obtain ⟨k, b⟩ := e
    by_cases hk : k = a
    · subst hk
      rw [Memory.erase, if_pos rfl, ih]
      by_cases hc : c = k
      · simp [hc]
      · have : ¬ k = c := fun e => hc e.symm
        simp [hc, Memory.read, this]
    · rw [Memory.erase, if_neg hk, Memory.read, Memory.read, ih]
      by_cases hc : k = c
      · subst hc; simp [hk]
      · simp [hc]

theorem Memory.read_insert_same (m : Memory) (a : Nat) (b : Byte) :
    (∀ e ∈ m, e.1 ≠ a) → (Memory.insert m a b).read a = b := by
  induction m with
  | nil => intro _; simp [Memory.insert, Memory.read]
  | cons e rest ih =>
    obtain ⟨k, c⟩ := e
    intro h
    have hk : k ≠ a := h (k, c) (by simp)
    have hr := ih fun e he => h e (by simp [he])
    simp only [Memory.insert]
    split
    · simp [Memory.read]
    · simp [Memory.read, hk, hr]

theorem Memory.read_insert_other (m : Memory) {a c : Nat} (b : Byte) (h : c ≠ a) :
    (Memory.insert m a b).read c = Memory.read m c := by
  have h' : ¬ a = c := fun e => h e.symm
  induction m with
  | nil => simp [Memory.insert, Memory.read, h']
  | cons e rest ih =>
    obtain ⟨k, d⟩ := e
    simp only [Memory.insert]
    split
    · simp [Memory.read, h']
    · simp [Memory.read, ih]

theorem Memory.not_mem_erase (m : Memory) (a : Nat) : ∀ e ∈ Memory.erase m a, e.1 ≠ a := by
  induction m with
  | nil => simp [Memory.erase]
  | cons e rest ih =>
    obtain ⟨k, b⟩ := e
    simp only [Memory.erase]
    split
    · exact ih
    · next hk =>
      intro e he
      rcases List.mem_cons.1 he with rfl | he
      · exact hk
      · exact ih e he

/-- A write is seen at its address and nowhere else (R59). -/
theorem Memory.read_write (m : Memory) (a c : Nat) (b : Byte) :
    (Memory.write m a b).read c = if c = a then b else Memory.read m c := by
  unfold Memory.write
  split
  · next hb => rw [Memory.read_erase, hb]
  · by_cases hc : c = a
    · subst hc
      simp [Memory.read_insert_same _ _ _ (Memory.not_mem_erase m c)]
    · rw [Memory.read_insert_other _ _ hc, Memory.read_erase]
      simp [hc]

@[simp] theorem Memory.read_write_same (m : Memory) (a : Nat) (b : Byte) :
    (Memory.write m a b).read a = b := by simp [Memory.read_write]

theorem Memory.read_write_of_ne (m : Memory) {a c : Nat} (b : Byte) (h : c ≠ a) :
    (Memory.write m a b).read c = Memory.read m c := by simp [Memory.read_write, h]

/-- A group of writes leaves every other byte alone (R51). -/
theorem Memory.read_writeAll_of_not_mem (m : Memory) (as : List Nat) (bs : List Byte) {c : Nat}
    (h : c ∉ as) : (Memory.writeAll m as bs).read c = Memory.read m c := by
  induction as generalizing m bs with
  | nil => cases bs <;> rfl
  | cons a as ih =>
    cases bs with
    | nil => rfl
    | cons b bs =>
      simp only [List.mem_cons, not_or] at h
      rw [Memory.writeAll, ih _ _ h.2, Memory.read_write_of_ne _ _ h.1]

/-- A group of writes to distinct addresses puts each byte at its address (R51). -/
theorem Memory.read_writeAll_getElem (m : Memory) (as : List Nat) (bs : List Byte)
    (hd : as.Nodup) (k : Nat) (ha : k < as.length) (hb : k < bs.length) :
    (Memory.writeAll m as bs).read as[k] = bs[k] := by
  induction as generalizing m bs k with
  | nil => simp at ha
  | cons a as ih =>
    cases bs with
    | nil => simp at hb
    | cons b bs =>
      rw [List.nodup_cons] at hd
      cases k with
      | zero => simp [Memory.writeAll, Memory.read_writeAll_of_not_mem _ _ _ hd.1]
      | succ k => simpa [Memory.writeAll] using ih _ _ hd.2 k (by simpa using ha) (by simpa using hb)

/-! ## The canonical form -/

theorem Memory.wfFrom_mono {lo lo' : Nat} {m : Memory} (h : Memory.wfFrom lo m = true)
    (hle : lo' ≤ lo) : Memory.wfFrom lo' m = true := by
  cases m with
  | nil => rfl
  | cons e rest =>
    obtain ⟨k, b⟩ := e
    simp only [Memory.wfFrom, Bool.and_eq_true, decide_eq_true_eq] at h ⊢
    exact ⟨⟨⟨by omega, h.1.1.2⟩, h.1.2⟩, h.2⟩

theorem Memory.wfFrom_erase {lo : Nat} {m : Memory} (a : Nat) (h : Memory.wfFrom lo m = true) :
    Memory.wfFrom lo (Memory.erase m a) = true := by
  induction m generalizing lo with
  | nil => rfl
  | cons e rest ih =>
    obtain ⟨k, b⟩ := e
    simp only [Memory.wfFrom, Bool.and_eq_true, decide_eq_true_eq] at h
    rw [Memory.erase]
    split
    · exact Memory.wfFrom_mono (ih h.2) (by omega)
    · simp only [Memory.wfFrom, Bool.and_eq_true, decide_eq_true_eq]
      exact ⟨h.1, ih h.2⟩

theorem Memory.wfFrom_insert {lo : Nat} {m : Memory} {a : Nat} {b : Byte}
    (h : Memory.wfFrom lo m = true) (hn : ∀ e ∈ m, e.1 ≠ a) (hlo : lo ≤ a) (ha : a < memSize)
    (hb : b ≠ initByte a) : Memory.wfFrom lo (Memory.insert m a b) = true := by
  induction m generalizing lo with
  | nil => simp [Memory.insert, Memory.wfFrom, hlo, hb]; exact ha
  | cons e rest ih =>
    obtain ⟨k, c⟩ := e
    have hk : k ≠ a := hn (k, c) (by simp)
    simp only [Memory.wfFrom, Bool.and_eq_true, decide_eq_true_eq] at h
    rw [Memory.insert]
    split
    · simp only [Memory.wfFrom, Bool.and_eq_true, decide_eq_true_eq]
      exact ⟨⟨⟨hlo, ha⟩, by simpa using hb⟩, ⟨⟨by omega, h.1.1.2⟩, h.1.2⟩, h.2⟩
    · simp only [Memory.wfFrom, Bool.and_eq_true, decide_eq_true_eq]
      exact ⟨h.1, ih h.2 (fun e he => hn e (by simp [he])) (by omega)⟩

/-- A write inside memory keeps the canonical form. -/
theorem Memory.wf_write {m : Memory} (a : Nat) (b : Byte) (h : m.wf = true) (ha : a < memSize) :
    (Memory.write m a b).wf = true := by
  unfold Memory.write
  split
  · exact Memory.wfFrom_erase a h
  · next hb =>
    exact Memory.wfFrom_insert (Memory.wfFrom_erase a h) (Memory.not_mem_erase m a) (by omega) ha hb

/-- A group of writes inside memory keeps the canonical form. -/
theorem Memory.wf_writeAll {m : Memory} (as : List Nat) (bs : List Byte) (h : m.wf = true)
    (ha : ∀ a ∈ as, a < memSize) : (Memory.writeAll m as bs).wf = true := by
  induction as generalizing m bs with
  | nil => cases bs <;> exact h
  | cons a as ih =>
    cases bs with
    | nil => exact h
    | cons b bs =>
      exact ih bs (Memory.wf_write a b h (ha a (by simp))) fun c hc => ha c (by simp [hc])

theorem State.reset_memory_wf : State.reset.mem.wf = true := rfl

/-! ## Two canonical memories that read alike are equal -/

theorem Memory.read_of_lt {lo : Nat} {m : Memory} (h : Memory.wfFrom lo m = true) {a : Nat}
    (ha : a < lo) : m.read a = initByte a := by
  induction m generalizing lo with
  | nil => rfl
  | cons e rest ih =>
    obtain ⟨k, b⟩ := e
    simp only [Memory.wfFrom, Bool.and_eq_true, decide_eq_true_eq] at h
    have hk : k ≠ a := by omega
    rw [Memory.read, if_neg hk]
    exact ih h.2 (by omega)

theorem Memory.eq_of_wfFrom {lo : Nat} {m m' : Memory} (h : Memory.wfFrom lo m = true)
    (h' : Memory.wfFrom lo m' = true) (hr : ∀ a, lo ≤ a → m.read a = m'.read a) : m = m' := by
  induction m generalizing lo m' with
  | nil =>
    cases m' with
    | nil => rfl
    | cons e rest =>
      obtain ⟨k, b⟩ := e
      simp only [Memory.wfFrom, Bool.and_eq_true, decide_eq_true_eq] at h'
      have := hr k (by omega)
      simp [Memory.read] at this
      simp [this] at h'
  | cons e rest ih =>
    obtain ⟨k, b⟩ := e
    simp only [Memory.wfFrom, Bool.and_eq_true, decide_eq_true_eq] at h
    cases m' with
    | nil =>
      have := hr k (by omega)
      simp [Memory.read] at this
      simp [this] at h
    | cons e' rest' =>
      obtain ⟨k', b'⟩ := e'
      simp only [Memory.wfFrom, Bool.and_eq_true, decide_eq_true_eq] at h'
      have hkk : k = k' := by
        rcases Nat.lt_trichotomy k k' with hlt | heq | hgt
        · have := hr k (by omega)
          have hne : k' ≠ k := by omega
          simp [Memory.read, hne, Memory.read_of_lt h'.2 (show k < k' + 1 by omega)] at this
          simp [this] at h
        · exact heq
        · have := hr k' (by omega)
          have hne : k ≠ k' := by omega
          simp [Memory.read, hne, Memory.read_of_lt h.2 (show k' < k + 1 by omega)] at this
          simp [← this] at h'
      subst hkk
      have hb : b = b' := by
        have := hr k (by omega)
        simpa [Memory.read] using this
      subst hb
      congr 1
      refine ih h.2 h'.2 fun a ha => ?_
      have := hr a (by omega)
      have hne : k ≠ a := by omega
      simpa [Memory.read, hne] using this

/-- Equal memories are equal data: two canonical memories that read alike everywhere are equal. -/
theorem Memory.ext_of_wf {m m' : Memory} (h : m.wf = true) (h' : m'.wf = true)
    (hr : ∀ a, m.read a = m'.read a) : m = m' :=
  Memory.eq_of_wfFrom h h' fun a _ => hr a

end Sys2Proof.Machine
end

