-- ==== Sys2Proof/Laws/Ops.lean ====
section
/-! SUPPORT. What each shared operation can do: taking a fault, forming data addresses, an
instruction that reaches memory, the compositor. -/

namespace Sys2Proof.Machine
open Sys2Proof.Config

/-! ## Taking a fault -/

/-- A fault sets `run` and nothing else (R212). -/
theorem raiseFault_takes (cause : FaultCause) (info op : Word) (s : State) :
    TakesFault (raiseFault cause info op s) s cause info op :=
  ⟨_, rfl, rfl, rfl, by constructor <;> simp⟩

/-! ## Data addresses -/

/-- Under `fault` the addresses are `addr`, `addr + 1`, ..., and none when the last lies outside
memory (R57). -/
theorem dataAddrs_fault (addr count : Nat) :
    dataAddrs .fault addr count =
      if count = 0 ∨ addr + count ≤ 4096 then some (List.range' addr count) else none := by
  induction count generalizing addr with
  | zero => simp [dataAddrs]
  | succ n ih =>
    rw [dataAddrs, ih]
    by_cases h : addr + (n + 1) ≤ 4096
    · have h1 : n = 0 ∨ addr + 1 + n ≤ 4096 := by omega
      have h2 : addr < 4096 := by omega
      simp [dataAddr, h, h1, h2, List.range'_succ]
    · by_cases h2 : addr < 4096
      · have h1 : ¬(n = 0 ∨ addr + 1 + n ≤ 4096) := by omega
        simp [dataAddr, h, h1, h2]
      · simp [dataAddr, h, h2]

/-- Under `wrap` every address is taken modulo 4096 (R157). -/
theorem dataAddrs_wrap (addr count : Nat) :
    dataAddrs .wrap addr count = some ((List.range' addr count).map (· % 4096)) := by
  induction count generalizing addr with
  | zero => simp [dataAddrs]
  | succ n ih =>
    rw [dataAddrs, ih]
    by_cases h : addr < 4096
    · simp [dataAddr, h, List.range'_succ, Nat.mod_eq_of_lt h]
    · simp [dataAddr, h, List.range'_succ]

/-- Every data address lies inside memory (R57). -/
theorem dataAddrs_lt {p : MemOorPolicy} {addr count : Nat} {as : List Nat}
    (h : dataAddrs p addr count = some as) : ∀ a ∈ as, a < memSize := by
  cases p with
  | fault =>
    rw [dataAddrs_fault] at h
    split at h
    · next hc =>
      simp only [Option.some.injEq] at h
      subst h
      intro a ha
      rw [List.mem_range'_1] at ha
      simp only [memSize]
      omega
    · simp at h
  | wrap =>
    rw [dataAddrs_wrap] at h
    simp only [Option.some.injEq] at h
    subst h
    intro a ha
    obtain ⟨b, -, rfl⟩ := List.mem_map.1 ha
    exact Nat.mod_lt _ (by decide)

theorem dataAddrs_length {p : MemOorPolicy} {addr count : Nat} {as : List Nat}
    (h : dataAddrs p addr count = some as) : as.length = count := by
  cases p with
  | fault =>
    rw [dataAddrs_fault] at h
    split at h
    · simp only [Option.some.injEq] at h; subst h; simp
    · simp at h
  | wrap =>
    rw [dataAddrs_wrap] at h
    simp only [Option.some.injEq] at h; subst h; simp

/-- The addresses of at most 16 bytes are distinct (R51). -/
theorem dataAddrs_nodup {p : MemOorPolicy} {addr count : Nat} {as : List Nat}
    (h : dataAddrs p addr count = some as) (hc : count ≤ 4096) : as.Nodup := by
  cases p with
  | fault =>
    rw [dataAddrs_fault] at h
    split at h
    · simp only [Option.some.injEq] at h; subst h; exact List.nodup_range'
    · simp at h
  | wrap =>
    rw [dataAddrs_wrap] at h
    simp only [Option.some.injEq] at h
    subst h
    refine List.Nodup.map_on ?_ List.nodup_range'
    intro a ha b hb hab
    rw [List.mem_range'_1] at ha hb
    omega

/-- An instruction that reaches memory takes its effect, or takes MEM_OUT_OF_RANGE. -/
theorem withData_cases {p : MemOorPolicy} {count : Nat} {op : Word} {s t : State}
    {effect : List Nat → State} (h : withData p count op s effect = .next t) :
    (∃ as, dataAddrs p s.i.toNat count = some as ∧ t = (effect as).advance) ∨
    (dataAddrs p s.i.toNat count = none ∧
      t = s.setRun (.faulted ⟨.memOutOfRange, outOfRangeInfo s.i, s.pc, op⟩)) := by
  unfold withData at h
  split at h
  · next as has => exact .inl ⟨as, has, by simpa using h.symm⟩
  · next hn => exact .inr ⟨hn, by simpa [raiseFault] using h.symm⟩

theorem withData_of_some {p : MemOorPolicy} {count : Nat} {op : Word} {s : State}
    {effect : List Nat → State} {as : List Nat} (h : dataAddrs p s.i.toNat count = some as) :
    withData p count op s effect = .next (effect as).advance := by
  simp [withData, h]

theorem withData_of_none {p : MemOorPolicy} {count : Nat} {op : Word} {s : State}
    {effect : List Nat → State} (h : dataAddrs p s.i.toNat count = none) :
    withData p count op s effect = raiseFault .memOutOfRange (outOfRangeInfo s.i) op s := by
  simp [withData, h]

/-! ## The compositor -/

theorem Framebuffer.get_flip (f : Framebuffer) (c d : CellIx) :
    Framebuffer.get (Framebuffer.flip f c) d =
      if d = c then !Framebuffer.get f d else Framebuffer.get f d := by
  unfold Framebuffer.get Framebuffer.flip
  rw [Vector.getElem_set]
  by_cases hq : c.val / 64 = d.val / 64
  · by_cases hr : c.val % 64 = d.val % 64
    · have : d = c := Fin.ext (by omega)
      subst this
      have : d.val % 64 < 64 := Nat.mod_lt _ (by decide)
      simp [this]
    · have h1 : d ≠ c := fun e => hr (by rw [e])
      have h2 : ¬ d.val % 64 = c.val % 64 := fun e => hr e.symm
      simp [hq, h1, hr]
  · have h1 : d ≠ c := fun e => hq (by rw [e])
    simp [hq, h1]

theorem Framebuffer.get_blank (c : CellIx) : Framebuffer.get Framebuffer.blank c = false := by
  simp [Framebuffer.get, Framebuffer.blank]

/-- Two framebuffers with the same cells are equal (R28). -/
theorem Framebuffer.ext_get {f g : Framebuffer}
    (h : ∀ c, Framebuffer.get f c = Framebuffer.get g c) : f = g := by
  refine Vector.ext fun r hr => ?_
  refine BitVec.eq_of_getLsbD_eq fun x hx => ?_
  have := h ⟨r * 64 + x, by omega⟩
  have hd : (r * 64 + x) / 64 = r := by omega
  have hm : (r * 64 + x) % 64 = x := by omega
  simpa only [Framebuffer.get, hd, hm] using this

/-- The cells a sprite's set bits meet, row by row and column by column (R172). -/
def spriteCells (ox oy : Byte) : Nat → List Byte → List CellIx
  | _, [] => []
  | r, b :: bs =>
    (([0, 1, 2, 3, 4, 5, 6, 7].filter (spriteBit b)).map (spriteCell ox oy r)) ++
      spriteCells ox oy (r + 1) bs

/-- Flipping cells one after the other, noting whether one was on. -/
def flipCells (d : Framebuffer × Bool) (cs : List CellIx) : Framebuffer × Bool :=
  cs.foldl (fun d c => (Framebuffer.flip d.1 c, d.2 || Framebuffer.get d.1 c)) d

theorem flipCells_append (d : Framebuffer × Bool) (cs es : List CellIx) :
    flipCells d (cs ++ es) = flipCells (flipCells d cs) es := by
  simp [flipCells]

theorem foldl_drawPixel (ox oy : Byte) (r : Nat) (b : Byte) (ks : List Nat) (d : Framebuffer × Bool) :
    ks.foldl (drawPixel ox oy r b) d =
      flipCells d ((ks.filter (spriteBit b)).map (spriteCell ox oy r)) := by
  induction ks generalizing d with
  | nil => rfl
  | cons k ks ih =>
    rw [List.foldl_cons, ih]
    by_cases h : spriteBit b k = true
    · simp [drawPixel, h, flipCells]
    · simp [drawPixel, h]

/-- The compositor flips the sprite's cells, one after the other. -/
theorem drawRows_eq (ox oy : Byte) (r : Nat) (bs : List Byte) (d : Framebuffer × Bool) :
    drawRows ox oy r bs d = flipCells d (spriteCells ox oy r bs) := by
  induction bs generalizing r d with
  | nil => rfl
  | cons b bs ih => rw [drawRows, ih, spriteCells, flipCells_append, drawRow, foldl_drawPixel]

theorem mem_spriteCells {ox oy : Byte} {r : Nat} {bs : List Byte} {c : CellIx} :
    c ∈ spriteCells ox oy r bs ↔
      ∃ j k, ∃ h : j < bs.length, k < 8 ∧ spriteBit bs[j] k = true ∧ c = spriteCell ox oy (r + j) k := by
  induction bs generalizing r with
  | nil => simp [spriteCells]
  | cons b bs ih =>
    rw [spriteCells, List.mem_append, ih]
    constructor
    · rintro (h | ⟨j, k, h, hk, hb, rfl⟩)
      · obtain ⟨k, hk, rfl⟩ := List.mem_map.1 h
        rw [List.mem_filter] at hk
        refine ⟨0, k, by simp, ?_, by simpa using hk.2, by simp⟩
        have := hk.1
        simp at this
        omega
      · exact ⟨j + 1, k, by simpa using h, hk, by simpa using hb, by congr 1; omega⟩
    · rintro ⟨j, k, h, hk, hb, rfl⟩
      cases j with
      | zero =>
        left
        refine List.mem_map.2 ⟨k, List.mem_filter.2 ⟨?_, by simpa using hb⟩, by simp⟩
        simp
        omega
      | succ j =>
        right
        exact ⟨j, k, by simpa using h, hk, by simpa using hb, by congr 1; omega⟩

theorem spriteCell_inj {ox oy : Byte} {r r' k k' : Nat} (hk : k < 8) (hk' : k' < 8)
    (hr : r < r' + 32) (hr' : r' < r + 32)
    (h : spriteCell ox oy r k = spriteCell ox oy r' k') : r = r' ∧ k = k' := by
  have := congrArg Fin.val h
  simp only [spriteCell, fbH, fbW] at this
  omega

/-- No cell is met twice by a sprite of at most 32 rows (R175). -/
theorem spriteCells_nodup (ox oy : Byte) (r : Nat) (bs : List Byte) (h : bs.length ≤ 32) :
    (spriteCells ox oy r bs).Nodup := by
  induction bs generalizing r with
  | nil => simp [spriteCells]
  | cons b bs ih =>
    have hlen : bs.length + 1 ≤ 32 := by simpa using h
    rw [spriteCells, List.nodup_append]
    refine ⟨?_, ih (r + 1) (by omega), ?_⟩
    · refine List.Nodup.map_on ?_ (List.Nodup.filter _ (by decide))
      intro k hk k' hk' e
      have h1 : k < 8 := by
        have := (List.mem_filter.1 hk).1
        simp at this; omega
      have h2 : k' < 8 := by
        have := (List.mem_filter.1 hk').1
        simp at this; omega
      exact (spriteCell_inj h1 h2 (by omega) (by omega) e).2
    · intro c hc d hd e
      subst e
      obtain ⟨k, hk, rfl⟩ := List.mem_map.1 hc
      have h1 : k < 8 := by
        have := (List.mem_filter.1 hk).1
        simp at this; omega
      obtain ⟨j, k', hj, hk', -, e⟩ := mem_spriteCells.1 hd
      have := (spriteCell_inj h1 hk' (by omega) (by omega) e).1
      omega

/-- Distinct cells flipped once each: a cell changes exactly when it is among them, and the flag is
raised exactly when one of them was on (R175). -/
theorem flipCells_spec (cs : List CellIx) (hd : cs.Nodup) (d : Framebuffer × Bool) :
    (∀ c, Framebuffer.get (flipCells d cs).1 c =
      if c ∈ cs then !Framebuffer.get d.1 c else Framebuffer.get d.1 c) ∧
    (flipCells d cs).2 = (d.2 || cs.any (Framebuffer.get d.1)) := by
  induction cs generalizing d with
  | nil => simp [flipCells]
  | cons c cs ih =>
    rw [List.nodup_cons] at hd
    obtain ⟨h1, h2⟩ := ih hd.2 (Framebuffer.flip d.1 c, d.2 || Framebuffer.get d.1 c)
    have hstep : flipCells d (c :: cs) =
        flipCells (Framebuffer.flip d.1 c, d.2 || Framebuffer.get d.1 c) cs := rfl
    rw [hstep]
    constructor
    · intro e
      rw [h1 e]
      simp only [Framebuffer.get_flip, List.mem_cons]
      by_cases he : e = c
      · subst he; simp [hd.1]
      · simp [he]
    · rw [h2]
      have : cs.any (Framebuffer.get (Framebuffer.flip d.1 c)) = cs.any (Framebuffer.get d.1) := by
        rw [Bool.eq_iff_iff, List.any_eq_true, List.any_eq_true]
        refine exists_congr fun e => and_congr_right fun he => ?_
        have : e ≠ c := fun h => hd.1 (h ▸ he)
        rw [Framebuffer.get_flip, if_neg this]
      simp [this, Bool.or_assoc]

/-- What drawing does to each cell, and when it collides (R172, R175). -/
theorem draw_spec (f : Framebuffer) (ox oy : Byte) (rows : List Byte) (h : rows.length ≤ 32) :
    (∀ c, Framebuffer.get (draw f ox oy rows).1 c =
      if c ∈ spriteCells ox oy 0 rows then !Framebuffer.get f c else Framebuffer.get f c) ∧
    (draw f ox oy rows).2 = (spriteCells ox oy 0 rows).any (Framebuffer.get f) := by
  have := flipCells_spec (spriteCells ox oy 0 rows) (spriteCells_nodup ox oy 0 rows h) (f, false)
  simpa [draw, drawRows_eq] using this

end Sys2Proof.Machine
end

