-- ==== Sys2Proof/Laws/Operands.lean ====
section
/-! SUPPORT. What each operand form and each flag computation is, as a number, and what a run of
data addresses inside memory is. -/

namespace Sys2Proof.Machine
open Sys2Proof.Config

/-! ## Operands -/

theorem addrOperand_toNat (nnn : BitVec 12) : (addrOperand nnn).toNat = nnn.toNat := by
  have := nnn.isLt
  simp [addrOperand]; omega

theorem lowNibble_toNat (b : Byte) : (b &&& 0xF).toNat = b.toNat % 16 := by
  rw [BitVec.toNat_and]
  exact Nat.and_two_pow_sub_one_eq_mod b.toNat 4

/-- The key a register selects is its low nibble (R190). -/
theorem keyOf_val (b : Byte) : (keyOf b).val = b.toNat % 16 := by
  show (b &&& 0xF).toNat % 16 = _
  rw [lowNibble_toNat]; omega

/-- The glyph a register selects is the one of its low nibble (R153). -/
theorem glyphAddr_toNat (b : Byte) : (glyphAddr b).toNat = 5 * (b.toNat % 16) := by
  rw [glyphAddr, lowNibble_toNat, BitVec.toNat_ofNat]
  simp only [Params.fontBase, fontGlyphBytes]
  omega

/-- All `count` addresses from one that leaves them inside memory are formed (R57, R150). -/
theorem dataAddrs_inside {addr count : Nat} (h : addr + count ≤ 4096) :
    dataAddrs .fault addr count = some (List.range' addr count) := by
  rw [dataAddrs_fault]; simp [h]

/-- The fault's `info` is `max(I, 4096)` (R57). -/
theorem outOfRangeInfo_toNat (i : Word) : (outOfRangeInfo i).toNat = max i.toNat 4096 := by
  unfold outOfRangeInfo
  split
  · next h => simp only [memSize] at h; simp; omega
  · next h => simp only [memSize] at h; omega

/-! ## Flags -/

theorem flagByte_toNat (b : Bool) : (flagByte b).toNat = b.toNat := by cases b <;> rfl

theorem carryFlag_toNat (p q : Byte) :
    (carryFlag p q).toNat = if 255 < p.toNat + q.toNat then 1 else 0 := by
  by_cases h : 255 < p.toNat + q.toNat <;> simp [carryFlag, flagByte, h]

theorem noBorrowFlag_toNat (p q : Byte) :
    (noBorrowFlag p q).toNat = if q.toNat ≤ p.toNat then 1 else 0 := by
  by_cases h : q.toNat ≤ p.toNat <;> simp [noBorrowFlag, flagByte, h]

theorem lowBitFlag_toNat (b : Byte) : (lowBitFlag b).toNat = b.toNat % 2 := by
  rw [lowBitFlag, flagByte_toNat, BitVec.getLsbD, Nat.testBit_zero]
  rcases Nat.mod_two_eq_zero_or_one b.toNat with h | h <;> simp [h]

theorem highBitFlag_toNat (b : Byte) : (highBitFlag b).toNat = b.toNat / 128 := by
  have h := b.isLt
  rw [highBitFlag, flagByte_toNat, BitVec.getLsbD, Nat.testBit_eq_decide_div_mod_eq]
  have h2 : b.toNat / 128 = 0 ∨ b.toNat / 128 = 1 := by omega
  rcases h2 with h2 | h2 <;> simp [h2]

end Sys2Proof.Machine
end

