-- ==== Sys2Proof/Laws/PerInstr.lean ====
section
/-! SUPPORT. Facts about the instructions as data, one lemma for each constructor. -/

namespace Sys2Proof.Laws.RowMatch

/-- The encoder's word of an instruction is one of its own row of the opcode table (spec/30_encoding.md
R74): the row with the instruction's mnemonic covers it. -/
def Statement (i : Instr) : Prop :=
  ∃ r ∈ opcodeTable, r.mnemonic = i.mnemonic ∧ r.covers (encode i) = true

theorem and_ones {n : Nat} (b : BitVec n) : b &&& BitVec.allOnes n = b := BitVec.and_allOnes

theorem wordOfNibbles_and (g x y n g' x' y' n' : BitVec 4) :
    wordOfNibbles g x y n &&& wordOfNibbles g' x' y' n' =
      wordOfNibbles (g &&& g') (x &&& x') (y &&& y') (n &&& n') := by
  unfold wordOfNibbles
  rw [← BitVec.and_append, ← BitVec.and_append, ← BitVec.and_append]

theorem wordOfByte_and (g x : BitVec 4) (nn : Byte) (g' x' : BitVec 4) (nn' : Byte) :
    wordOfByte g x nn &&& wordOfByte g' x' nn' =
      wordOfByte (g &&& g') (x &&& x') (nn &&& nn') := by
  unfold wordOfByte
  rw [← BitVec.and_append, ← BitVec.and_append]

theorem wordOfAddr_and (g : BitVec 4) (a : BitVec 12) (g' : BitVec 4) (a' : BitVec 12) :
    wordOfAddr g a &&& wordOfAddr g' a' = wordOfAddr (g &&& g') (a &&& a') := by
  unfold wordOfAddr
  rw [← BitVec.and_append]

/-- The mask of the group and the last nibble. -/
theorem wordOfNibbles_and_ends (g x y n : BitVec 4) :
    wordOfNibbles g x y n &&& 0xF00F = wordOfNibbles g 0 0 n := by
  have h := wordOfNibbles_and g x y n (BitVec.allOnes 4) 0 0 (BitVec.allOnes 4)
  simp only [and_ones, BitVec.ofNat_eq_ofNat, BitVec.and_zero] at h
  exact h

/-- The mask of the group, over four nibbles. -/
theorem wordOfNibbles_and_group (g x y n : BitVec 4) :
    wordOfNibbles g x y n &&& 0xF000 = wordOfNibbles g 0 0 0 := by
  have h := wordOfNibbles_and g x y n (BitVec.allOnes 4) 0 0 0
  simp only [and_ones, BitVec.ofNat_eq_ofNat, BitVec.and_zero] at h
  exact h

/-- The mask of the group, over a byte operand. -/
theorem wordOfByte_and_group (g x : BitVec 4) (nn : Byte) :
    wordOfByte g x nn &&& 0xF000 = wordOfByte g 0 0 := by
  have h := wordOfByte_and g x nn (BitVec.allOnes 4) 0 0
  simp only [and_ones, BitVec.ofNat_eq_ofNat, BitVec.and_zero] at h
  exact h

/-- The mask of the group and the low byte. -/
theorem wordOfByte_and_low (g x : BitVec 4) (nn : Byte) :
    wordOfByte g x nn &&& 0xF0FF = wordOfByte g 0 nn := by
  have h := wordOfByte_and g x nn (BitVec.allOnes 4) 0 (BitVec.allOnes 8)
  simp only [and_ones, BitVec.ofNat_eq_ofNat, BitVec.and_zero] at h
  exact h

/-- The mask of the group, over an address operand. -/
theorem wordOfAddr_and_group (g : BitVec 4) (nnn : BitVec 12) :
    wordOfAddr g nnn &&& 0xF000 = wordOfAddr g 0 := by
  have h := wordOfAddr_and g nnn (BitVec.allOnes 4) 0
  simp only [and_ones, BitVec.ofNat_eq_ofNat, BitVec.and_zero] at h
  exact h

theorem cls : Statement .cls :=
  ⟨⟨"CLS", 0xFFFF, 0x00E0⟩, by simp [opcodeTable], rfl, by decide⟩

theorem ret : Statement .ret :=
  ⟨⟨"RET", 0xFFFF, 0x00EE⟩, by simp [opcodeTable], rfl, by decide⟩

theorem jp (nnn : BitVec 12) : Statement (.jp nnn) :=
  ⟨⟨"JP", 0xF000, 0x1000⟩, by simp [opcodeTable], rfl, by
    rw [OpcodeRow.covers, beq_iff_eq]
    exact (wordOfAddr_and_group _ _).trans (by decide)⟩

theorem call (nnn : BitVec 12) : Statement (.call nnn) :=
  ⟨⟨"CALL", 0xF000, 0x2000⟩, by simp [opcodeTable], rfl, by
    rw [OpcodeRow.covers, beq_iff_eq]
    exact (wordOfAddr_and_group _ _).trans (by decide)⟩

theorem seImm (x : Reg) (nn : Byte) : Statement (.seImm x nn) :=
  ⟨⟨"SE_IMM", 0xF000, 0x3000⟩, by simp [opcodeTable], rfl, by
    rw [OpcodeRow.covers, beq_iff_eq]
    exact (wordOfByte_and_group _ _ _).trans (by decide)⟩

theorem sneImm (x : Reg) (nn : Byte) : Statement (.sneImm x nn) :=
  ⟨⟨"SNE_IMM", 0xF000, 0x4000⟩, by simp [opcodeTable], rfl, by
    rw [OpcodeRow.covers, beq_iff_eq]
    exact (wordOfByte_and_group _ _ _).trans (by decide)⟩

theorem seReg (x : Reg) (y : Reg) : Statement (.seReg x y) :=
  ⟨⟨"SE_REG", 0xF00F, 0x5000⟩, by simp [opcodeTable], rfl, by
    rw [OpcodeRow.covers, beq_iff_eq]
    exact (wordOfNibbles_and_ends _ _ _ _).trans (by decide)⟩

theorem ldImm (x : Reg) (nn : Byte) : Statement (.ldImm x nn) :=
  ⟨⟨"LD_IMM", 0xF000, 0x6000⟩, by simp [opcodeTable], rfl, by
    rw [OpcodeRow.covers, beq_iff_eq]
    exact (wordOfByte_and_group _ _ _).trans (by decide)⟩

theorem addImm (x : Reg) (nn : Byte) : Statement (.addImm x nn) :=
  ⟨⟨"ADD_IMM", 0xF000, 0x7000⟩, by simp [opcodeTable], rfl, by
    rw [OpcodeRow.covers, beq_iff_eq]
    exact (wordOfByte_and_group _ _ _).trans (by decide)⟩

theorem ldReg (x : Reg) (y : Reg) : Statement (.ldReg x y) :=
  ⟨⟨"LD_REG", 0xF00F, 0x8000⟩, by simp [opcodeTable], rfl, by
    rw [OpcodeRow.covers, beq_iff_eq]
    exact (wordOfNibbles_and_ends _ _ _ _).trans (by decide)⟩

theorem orReg (x : Reg) (y : Reg) : Statement (.orReg x y) :=
  ⟨⟨"OR", 0xF00F, 0x8001⟩, by simp [opcodeTable], rfl, by
    rw [OpcodeRow.covers, beq_iff_eq]
    exact (wordOfNibbles_and_ends _ _ _ _).trans (by decide)⟩

theorem andReg (x : Reg) (y : Reg) : Statement (.andReg x y) :=
  ⟨⟨"AND", 0xF00F, 0x8002⟩, by simp [opcodeTable], rfl, by
    rw [OpcodeRow.covers, beq_iff_eq]
    exact (wordOfNibbles_and_ends _ _ _ _).trans (by decide)⟩

theorem xorReg (x : Reg) (y : Reg) : Statement (.xorReg x y) :=
  ⟨⟨"XOR", 0xF00F, 0x8003⟩, by simp [opcodeTable], rfl, by
    rw [OpcodeRow.covers, beq_iff_eq]
    exact (wordOfNibbles_and_ends _ _ _ _).trans (by decide)⟩

theorem addReg (x : Reg) (y : Reg) : Statement (.addReg x y) :=
  ⟨⟨"ADD_REG", 0xF00F, 0x8004⟩, by simp [opcodeTable], rfl, by
    rw [OpcodeRow.covers, beq_iff_eq]
    exact (wordOfNibbles_and_ends _ _ _ _).trans (by decide)⟩

theorem sub (x : Reg) (y : Reg) : Statement (.sub x y) :=
  ⟨⟨"SUB", 0xF00F, 0x8005⟩, by simp [opcodeTable], rfl, by
    rw [OpcodeRow.covers, beq_iff_eq]
    exact (wordOfNibbles_and_ends _ _ _ _).trans (by decide)⟩

theorem shr (x : Reg) (y : Reg) : Statement (.shr x y) :=
  ⟨⟨"SHR", 0xF00F, 0x8006⟩, by simp [opcodeTable], rfl, by
    rw [OpcodeRow.covers, beq_iff_eq]
    exact (wordOfNibbles_and_ends _ _ _ _).trans (by decide)⟩

theorem subn (x : Reg) (y : Reg) : Statement (.subn x y) :=
  ⟨⟨"SUBN", 0xF00F, 0x8007⟩, by simp [opcodeTable], rfl, by
    rw [OpcodeRow.covers, beq_iff_eq]
    exact (wordOfNibbles_and_ends _ _ _ _).trans (by decide)⟩

theorem shl (x : Reg) (y : Reg) : Statement (.shl x y) :=
  ⟨⟨"SHL", 0xF00F, 0x800E⟩, by simp [opcodeTable], rfl, by
    rw [OpcodeRow.covers, beq_iff_eq]
    exact (wordOfNibbles_and_ends _ _ _ _).trans (by decide)⟩

theorem sneReg (x : Reg) (y : Reg) : Statement (.sneReg x y) :=
  ⟨⟨"SNE_REG", 0xF00F, 0x9000⟩, by simp [opcodeTable], rfl, by
    rw [OpcodeRow.covers, beq_iff_eq]
    exact (wordOfNibbles_and_ends _ _ _ _).trans (by decide)⟩

theorem ldIndex (nnn : BitVec 12) : Statement (.ldIndex nnn) :=
  ⟨⟨"LD_INDEX", 0xF000, 0xA000⟩, by simp [opcodeTable], rfl, by
    rw [OpcodeRow.covers, beq_iff_eq]
    exact (wordOfAddr_and_group _ _).trans (by decide)⟩

theorem jpV0 (nnn : BitVec 12) : Statement (.jpV0 nnn) :=
  ⟨⟨"JP_V0", 0xF000, 0xB000⟩, by simp [opcodeTable], rfl, by
    rw [OpcodeRow.covers, beq_iff_eq]
    exact (wordOfAddr_and_group _ _).trans (by decide)⟩

theorem rnd (x : Reg) (nn : Byte) : Statement (.rnd x nn) :=
  ⟨⟨"RND", 0xF000, 0xC000⟩, by simp [opcodeTable], rfl, by
    rw [OpcodeRow.covers, beq_iff_eq]
    exact (wordOfByte_and_group _ _ _).trans (by decide)⟩

theorem drw (x : Reg) (y : Reg) (n : BitVec 4) : Statement (.drw x y n) :=
  ⟨⟨"DRW", 0xF000, 0xD000⟩, by simp [opcodeTable], rfl, by
    rw [OpcodeRow.covers, beq_iff_eq]
    exact (wordOfNibbles_and_group _ _ _ _).trans (by decide)⟩

theorem skp (x : Reg) : Statement (.skp x) :=
  ⟨⟨"SKP", 0xF0FF, 0xE09E⟩, by simp [opcodeTable], rfl, by
    rw [OpcodeRow.covers, beq_iff_eq]
    exact (wordOfByte_and_low _ _ _).trans (by decide)⟩

theorem sknp (x : Reg) : Statement (.sknp x) :=
  ⟨⟨"SKNP", 0xF0FF, 0xE0A1⟩, by simp [opcodeTable], rfl, by
    rw [OpcodeRow.covers, beq_iff_eq]
    exact (wordOfByte_and_low _ _ _).trans (by decide)⟩

theorem ldFromDt (x : Reg) : Statement (.ldFromDt x) :=
  ⟨⟨"LD_FROM_DT", 0xF0FF, 0xF007⟩, by simp [opcodeTable], rfl, by
    rw [OpcodeRow.covers, beq_iff_eq]
    exact (wordOfByte_and_low _ _ _).trans (by decide)⟩

theorem ldKey (x : Reg) : Statement (.ldKey x) :=
  ⟨⟨"LD_KEY", 0xF0FF, 0xF00A⟩, by simp [opcodeTable], rfl, by
    rw [OpcodeRow.covers, beq_iff_eq]
    exact (wordOfByte_and_low _ _ _).trans (by decide)⟩

theorem ldDt (x : Reg) : Statement (.ldDt x) :=
  ⟨⟨"LD_DT", 0xF0FF, 0xF015⟩, by simp [opcodeTable], rfl, by
    rw [OpcodeRow.covers, beq_iff_eq]
    exact (wordOfByte_and_low _ _ _).trans (by decide)⟩

theorem ldSt (x : Reg) : Statement (.ldSt x) :=
  ⟨⟨"LD_ST", 0xF0FF, 0xF018⟩, by simp [opcodeTable], rfl, by
    rw [OpcodeRow.covers, beq_iff_eq]
    exact (wordOfByte_and_low _ _ _).trans (by decide)⟩

theorem addIndex (x : Reg) : Statement (.addIndex x) :=
  ⟨⟨"ADD_INDEX", 0xF0FF, 0xF01E⟩, by simp [opcodeTable], rfl, by
    rw [OpcodeRow.covers, beq_iff_eq]
    exact (wordOfByte_and_low _ _ _).trans (by decide)⟩

theorem ldFont (x : Reg) : Statement (.ldFont x) :=
  ⟨⟨"LD_FONT", 0xF0FF, 0xF029⟩, by simp [opcodeTable], rfl, by
    rw [OpcodeRow.covers, beq_iff_eq]
    exact (wordOfByte_and_low _ _ _).trans (by decide)⟩

theorem bcd (x : Reg) : Statement (.bcd x) :=
  ⟨⟨"BCD", 0xF0FF, 0xF033⟩, by simp [opcodeTable], rfl, by
    rw [OpcodeRow.covers, beq_iff_eq]
    exact (wordOfByte_and_low _ _ _).trans (by decide)⟩

theorem storeRegs (x : Reg) : Statement (.storeRegs x) :=
  ⟨⟨"STORE_REGS", 0xF0FF, 0xF055⟩, by simp [opcodeTable], rfl, by
    rw [OpcodeRow.covers, beq_iff_eq]
    exact (wordOfByte_and_low _ _ _).trans (by decide)⟩

theorem loadRegs (x : Reg) : Statement (.loadRegs x) :=
  ⟨⟨"LOAD_REGS", 0xF0FF, 0xF065⟩, by simp [opcodeTable], rfl, by
    rw [OpcodeRow.covers, beq_iff_eq]
    exact (wordOfByte_and_low _ _ _).trans (by decide)⟩

end Sys2Proof.Laws.RowMatch
end

