-- ==== Sys2Proof/Laws/Step.lean ====
section
/-! SUPPORT. What a fetch, an agent's transaction and a step can do. -/

namespace Sys2Proof.Machine
open Sys2Proof.Config

/-! ## The fetch -/

theorem pcOk_iff (pc : Word) :
    pcOk pc = true ↔ pc.toNat % 2 = 0 ∧ 0x200 ≤ pc.toNat ∧ pc.toNat ≤ 0xFFE := by
  simp [pcOk, and_assoc]

/-- The address after one that can be fetched from does not wrap. -/
theorem pcOk_add_two {pc : Word} (h : pcOk pc = true) : (pc + 2).toNat = pc.toNat + 2 := by
  have := (pcOk_iff pc).1 h
  rw [BitVec.toNat_add]; simp; omega

/-- The word fetched has the byte at `pc` as its high byte (R56). -/
theorem State.fetchWord_toNat (s : State) :
    s.fetchWord.toNat =
      (s.mem.read s.pc.toNat).toNat * 256 + (s.mem.read (s.pc.toNat + 1)).toNat := by
  have h1 := (s.mem.read s.pc.toNat).isLt
  have h2 := (s.mem.read (s.pc.toNat + 1)).isLt
  rw [State.fetchWord, BitVec.toNat_append, Nat.shiftLeft_eq, ← Nat.shiftLeft_eq,
    ← Nat.shiftLeft_add_eq_or_of_lt h2, Nat.shiftLeft_eq]

theorem engineStep_of_decode {s : State} {i : Instr} (hr : s.run = .running)
    (hp : pcOk s.pc = true) (hd : decode s.fetchWord = .ok i) : engineStep s = exec i s := by
  simp [engineStep, hr, runningStep, hp, hd]

/-! ## The other agents -/

theorem countDown_toNat (b : Byte) : (countDown b).toNat = b.toNat - 1 := by
  unfold countDown
  split
  · next h => subst h; rfl
  · next h =>
    have h1 : b.toNat ≠ 0 := fun e => h (BitVec.eq_of_toNat_eq e)
    have h2 := b.isLt
    rw [BitVec.toNat_sub]; simp; omega

/-- A key event ends a wait, or it sets the latch and nothing else (R196, R231). -/
theorem State.pressKey_cases (s : State) (k : KeyIx) (p : Bool) :
    (∃ r, s.run = .waitKey r ∧ p = true ∧ s.getKey k = false ∧
      s.pressKey k p =
        (((s.setKeyBit k p).setV r (BitVec.ofNat 8 k.val)).setPc (s.pc + 2)).setRun .running) ∨
    ((∀ r, s.run = .waitKey r → p = false ∨ s.getKey k = true) ∧
      s.pressKey k p = s.setKeyBit k p) := by
  unfold State.pressKey
  split
  · next r hr =>
    cases p
    · right; simp
    · cases hk : s.getKey k
      · left; exact ⟨r, hr, rfl, rfl, by simp⟩
      · right; simp
  · next h => right; simp [h]
  · next h => right; simp [h]

/-- A reset rebuilds the state, or it reports an image that is too long (R250, R253). -/
theorem State.resetWith_cases (rom : Rom) (s : State) :
    (rom.length ≤ 3584 ∧ s.resetWith rom =
      { State.reset with
        mem := loadedMemory rom, draws := s.draws, turns := s.turns, agenda := s.agenda }) ∨
    (3584 < rom.length ∧ s.resetWith rom = { s with loadError := true }) := by
  by_cases h : rom.length ≤ 3584
  · exact .inl ⟨h, by rw [State.resetWith, if_pos h]⟩
  · exact .inr ⟨by omega, by rw [State.resetWith, if_neg h]⟩

/-! ## Memory stays canonical -/

theorem loadedMemory_wf (rom : Rom) (h : rom.length ≤ 3584) : (loadedMemory rom).wf = true := by
  refine Memory.wf_writeAll _ _ rfl fun a ha => ?_
  simp only [List.mem_range'_1, progBase] at ha
  simp only [memSize]
  omega

theorem State.placeWord_mem_wf (s : State) (w : Word) (h : s.mem.wf = true) :
    (s.placeWord w).mem.wf = true := by
  have hb : (if pcOk s.pc then s.pc else 0x200 : Word).toNat + 1 < memSize := by
    split
    · next hp => have := (pcOk_iff _).1 hp; simp only [memSize]; omega
    · decide
  exact Memory.wf_write _ _ (Memory.wf_write _ _ h (by omega)) hb

/-! ## The step -/

/-- A step is a transaction on a state that differs in the model's record of the order alone. -/
theorem step_cases {s t : State} (h : step s = .next t) :
    (s.agenda = [] ∧ transact (scheduled s.turns) s.countTurn = .next t) ∨
    ∃ tr rest, s.agenda = tr :: rest ∧ transact tr (s.setAgenda rest) = .next t := by
  rw [step, nextTransaction] at h
  cases ha : s.agenda with
  | nil => simp only [State.upcoming, State.pastUpcoming, ha] at h; exact .inl ⟨rfl, h⟩
  | cons tr rest =>
    simp only [State.upcoming, State.pastUpcoming, ha] at h; exact .inr ⟨tr, rest, rfl, h⟩

/-- The state a transaction acts on has everything of the state before but the record of the order. -/
theorem State.pastUpcoming_eq (s : State) :
    s.pastUpcoming = { s with turns := s.pastUpcoming.turns, agenda := s.pastUpcoming.agenda } := by
  unfold State.pastUpcoming
  split <;> rfl

/-- With the agenda begun, the step is its first transaction. -/
theorem step_of_agenda {s : State} {tr : Transaction} {rest : List Transaction}
    (h : s.agenda = tr :: rest) : step s = transact tr (s.setAgenda rest) := by
  simp only [step, nextTransaction, State.upcoming, State.pastUpcoming, h]

/-- With the agenda empty, the step is the next transaction of the open order. -/
theorem step_of_no_agenda {s : State} (h : s.agenda = []) :
    step s = transact (scheduled s.turns) s.countTurn := by
  simp only [step, nextTransaction, State.upcoming, State.pastUpcoming, h]

theorem core_run_succ (M : Host.Core) (k : Nat) (s t : M.State) (h : M.step s = .next t) :
    M.run (k + 1) s = M.run k t := by
  rw [Host.Core.run, h]

/-- A run goes on from the state a step answers. -/
theorem run_succ {s t : State} (k : Nat) (h : step s = .next t) :
    Host.Core.run Sys2Proof.core (k + 1) s = Host.Core.run Sys2Proof.core k t :=
  core_run_succ Sys2Proof.core k s t h

end Sys2Proof.Machine
end

