-- ==== Sys2Proof/WellFormed.lean ====
section
/-! DEFINITION. Well-formedness of what the machine is given.  A field of an instruction is bounded
by its type (`Reg`, `BitVec`), so no term of `Instr` is ill-formed and `Instr.wellFormed` states
what the types already give (spec/10_state.md R20: "every index an instruction can form is in
range").  The checks that CAN fail are the one on six fields taken as a record (R71: they overlap)
and the one on a ROM image (R55, R253). -/

namespace Sys2Proof

/-- A register number is in range when it is below 16 (R20). -/
def regInRange (r : Nat) : Bool := decide (r < 16)

/-- Every register an instruction names is in range (R20). -/
def Instr.wellFormed : Instr → Bool
  | .cls | .ret | .jp _ | .call _ | .ldIndex _ | .jpV0 _ => true
  | .seImm x _ | .sneImm x _ | .ldImm x _ | .addImm x _ | .rnd x _ => regInRange x.val
  | .seReg x y | .sneReg x y | .ldReg x y | .orReg x y | .andReg x y | .xorReg x y
  | .addReg x y | .sub x y | .shr x y | .subn x y | .shl x y | .drw x y _ =>
    regInRange x.val && regInRange y.val
  | .skp x | .sknp x | .ldFromDt x | .ldKey x | .ldDt x | .ldSt x | .addIndex x | .ldFont x
  | .bcd x | .storeRegs x | .loadRegs x => regInRange x.val

/-- Six fields are those of one opcode when they agree where they overlap (R71): `nn` is `y`, `n`
and `nnn` is `x`, `nn`. -/
def Fields.wellFormed (f : Fields) : Bool :=
  f.nn == f.y ++ f.n && f.nnn == f.x ++ f.nn

/-- A ROM image is well-formed when it fits in 0x200 to 0xFFF (R55, R253). -/
def Rom.wellFormed (rom : Rom) : Bool := decide (rom.length ≤ Config.romMax)

end Sys2Proof
end

