-- ==== Sys2Proof/Tests/Slice0.lean ====
section
/-! SUPPORT. Tests.  Every expected value is taken from spec/95_test_vectors.md (the T, S and P
numbers are its), or worked out by hand from the spec's encodings.  After them, for each statement
with hypotheses, named witnesses of states and operands that meet them. -/

namespace Sys2Proof.Tests
open Sys2Proof Sys2Proof.Machine Sys2Proof.Config

/-! ## Well-formedness refuses what is ill-formed -/

theorem test_register_16_is_refused : regInRange 16 = false ∧ regInRange 15 = true := by decide

theorem test_every_instruction_is_well_formed (i : Instr) : i.wellFormed = true := by
  cases i <;> simp [Instr.wellFormed, regInRange]

/-- `nn` that is not `y`, `n`. -/
theorem test_fields_with_wrong_nn_are_refused :
    Fields.wellFormed ⟨0xD, 1, 2, 0xF, 0x2E, 0x12E⟩ = false := by decide

/-- `nnn` that is not `x`, `nn`. -/
theorem test_fields_with_wrong_nnn_are_refused :
    Fields.wellFormed ⟨0xD, 1, 2, 0xF, 0x2F, 0x22F⟩ = false := by decide

theorem test_rom_of_3585_bytes_is_refused :
    Rom.wellFormed (List.replicate 3585 0) = false ∧ Rom.wellFormed (List.replicate 3584 0) = true := by
  constructor <;> (rw [Rom.wellFormed, List.length_replicate]; decide)

/-! ## Decoding: one word for each constructor, by the patterns of R74 -/

theorem test_decode_group0 : decode 0x00E0 = .ok .cls ∧ decode 0x00EE = .ok .ret := by decide

theorem test_decode_jumps :
    decode 0x1ABC = .ok (.jp 0xABC) ∧ decode 0x2300 = .ok (.call 0x300) ∧
    decode 0xB2FE = .ok (.jpV0 0x2FE) ∧ decode 0xAFFE = .ok (.ldIndex 0xFFE) := by decide

theorem test_decode_skips :
    decode 0x3F01 = .ok (.seImm 15 0x01) ∧ decode 0x4A5C = .ok (.sneImm 10 0x5C) ∧
    decode 0x5120 = .ok (.seReg 1 2) ∧ decode 0x9AB0 = .ok (.sneReg 10 11) ∧
    decode 0xE49E = .ok (.skp 4) ∧ decode 0xE4A1 = .ok (.sknp 4) := by decide

theorem test_decode_immediates :
    decode 0x60FF = .ok (.ldImm 0 0xFF) ∧ decode 0x7180 = .ok (.addImm 1 0x80) ∧
    decode 0xC10F = .ok (.rnd 1 0x0F) := by decide

theorem test_decode_group8 :
    decode 0x8120 = .ok (.ldReg 1 2) ∧ decode 0x8121 = .ok (.orReg 1 2) ∧
    decode 0x8122 = .ok (.andReg 1 2) ∧ decode 0x8123 = .ok (.xorReg 1 2) ∧
    decode 0x8AB4 = .ok (.addReg 10 11) ∧ decode 0x8125 = .ok (.sub 1 2) ∧
    decode 0x8126 = .ok (.shr 1 2) ∧ decode 0x8127 = .ok (.subn 1 2) ∧
    decode 0x812E = .ok (.shl 1 2) := by decide

theorem test_decode_drw : decode 0xD12F = .ok (.drw 1 2 0xF) := by decide

theorem test_decode_groupF :
    decode 0xF307 = .ok (.ldFromDt 3) ∧ decode 0xF30A = .ok (.ldKey 3) ∧
    decode 0xF315 = .ok (.ldDt 3) ∧ decode 0xF318 = .ok (.ldSt 3) ∧
    decode 0xF21E = .ok (.addIndex 2) ∧ decode 0xF329 = .ok (.ldFont 3) ∧
    decode 0xF033 = .ok (.bcd 0) ∧ decode 0xF255 = .ok (.storeRegs 2) ∧
    decode 0xF265 = .ok (.loadRegs 2) := by decide

/-- 95_test_vectors.md 2.7. -/
theorem test_decode_rejects :
    decode 0x0000 = .error .group0 ∧ decode 0x00E1 = .error .group0 ∧
    decode 0x00FE = .error .group0 ∧ decode 0x0123 = .error .group0 ∧
    decode 0x5121 = .error .group5 ∧ decode 0x8128 = .error .group8 ∧
    decode 0x812D = .error .group8 ∧ decode 0x812F = .error .group8 ∧
    decode 0x9121 = .error .group9 ∧ decode 0xE19F = .error .groupE ∧
    decode 0xE100 = .error .groupE ∧ decode 0xF100 = .error .groupF ∧
    decode 0xF1FF = .error .groupF ∧ decode 0xF10B = .error .groupF ∧
    decode 0xF156 = .error .groupF := by decide

/-- T2. -/
theorem test_fields_of_D12F : fieldsOf 0xD12F = ⟨0xD, 1, 2, 0xF, 0x2F, 0x12F⟩ := by decide

/-- T1: the high byte comes first. -/
theorem test_decode_bytes :
    decodeBytes [0x12, 0x34, 0x56] = .ok (.jp 0x234, [0x56]) ∧
    decodeBytes [0x12] = .error .tooShort ∧ decodeBytes [] = .error .tooShort ∧
    decodeBytes [0x81, 0x28, 0x00] = .error .group8 := by decide

theorem test_decode_table_word :
    decodeTableWord 16 0x8127 = some (.subn 1 2) ∧ decodeTableWord 16 0x0000 = none := by decide

theorem test_encode :
    encode (.shl 1 2) = 0x812E ∧ encode (.drw 1 2 0xF) = 0xD12F ∧ encode (.jpV0 0x2FE) = 0xB2FE ∧
    encode (.sknp 4) = 0xE4A1 ∧ encode (.rnd 1 0x0F) = 0xC10F := by decide

/-! ## One step, from spec/95_test_vectors.md -/

/-- The state after one step that runs the word `op`, from `s`. -/
def after (op : Nat) (s : State) : State :=
  match step (s.withFetchWord 16 op) with
  | .next t => t
  | .fault _ => s
  | .refused _ => s

/-- The state after reset with some registers set. -/
def regs (l : List (Reg × Byte)) : State := l.foldl (fun s e => s.setV e.1 e.2) State.reset

/-- With `I`. -/
def at_ (s : State) (i : Word) : State := s.setI i

/-- With bytes from an address on. -/
def bytes (s : State) (a : Nat) (bs : List Byte) : State :=
  s.setMem (s.mem.writeAll (List.range' a bs.length) bs)

/-- The screen with exactly the cells listed on. -/
def screen (l : List CellIx) : Framebuffer := l.foldl Framebuffer.flip Framebuffer.blank

/-- With a stack of the given depth, all entries `w`. -/
def depth (s : State) (n : Fin 17) (w : Word) : State :=
  { s with sp := n, stack := Vector.replicate 16 w }

/-- T1. -/
theorem test_step_fetches_high_byte_first :
    (after 0x1234 State.reset).pc = 0x234 := by decide

/-- T4. -/
theorem test_step_at_top_address :
    (after 0x6007 (State.reset.setPc 0xFFE)).pc = 0x1000 ∧
    engineStep (State.reset.setPc 0x1000) =
      raiseFault .pcInvalid 0x1000 0 (State.reset.setPc 0x1000) := by
  refine ⟨by decide, by rfl⟩

/-- T5. -/
theorem test_step_at_odd_pc : ∀ t, engineStep (State.reset.setPc 0x201) = .next t →
    t = { State.reset with pc := 0x201, run := .faulted ⟨.pcInvalid, 0x201, 0x201, 0⟩ } := by
  intro t h; injection h with h; exact h.symm

/-- P7b: the engine's first step from reset with nothing loaded. -/
theorem test_step_from_empty_reset : ∀ t, step (State.reset.setAgenda [.engine]) = .next t →
    t = { State.reset with run := .faulted ⟨.invalidInstruction, 0, 0x200, 0⟩ } := by
  intro t h; injection h with h; exact h.symm

/-- T10, T11. -/
theorem test_jp : (after 0x1ABC State.reset).pc = 0x0ABC ∧ (after 0x1201 State.reset).pc = 0x0201 := by
  decide

/-- T14, T15. -/
theorem test_call :
    (after 0x2300 (State.reset.setPc 0xFFE)).stack.get 0 = 0x1000 ∧
    (after 0x2300 (depth State.reset 16 0)).run = .faulted ⟨.stackOverflow, 0x202, 0x200, 0x2300⟩ := by
  decide

/-- T16, T17. -/
theorem test_ret :
    (after 0x00EE { State.reset with sp := 2, stack := State.reset.stack.set 1 0x400 }).pc = 0x400 ∧
    (after 0x00EE { State.reset with sp := 2, stack := State.reset.stack.set 1 0x400 }).sp = 1 ∧
    (after 0x00EE State.reset).run = .faulted ⟨.stackUnderflow, 0, 0x200, 0x00EE⟩ := by decide

/-- T19, T20. -/
theorem test_se_imm :
    (after 0x3F01 State.reset).pc = 0x202 ∧
    (after 0x3FFF ((regs [(15, 0xFF)]).setPc 0xFFE)).pc = 0x1002 := by decide

/-- T21, T22. -/
theorem test_sne_imm :
    (after 0x4000 State.reset).pc = 0x202 ∧ (after 0x4001 State.reset).pc = 0x204 := by decide

/-- T23, T24. -/
theorem test_se_reg :
    (after 0x5AA0 (regs [(10, 9)])).pc = 0x204 ∧ (after 0x5120 (regs [(1, 1), (2, 2)])).pc = 0x202 := by
  decide

/-- T25, T26. -/
theorem test_sne_reg :
    (after 0x9AA0 (regs [(10, 9)])).pc = 0x202 ∧ (after 0x9120 (regs [(1, 1), (2, 2)])).pc = 0x204 := by
  decide

/-- T28, T29. -/
theorem test_jp_v0 :
    (after 0xBFFF (regs [(0, 0xFF)])).pc = 0x10FE ∧ (after 0xB200 (regs [(0, 1)])).pc = 0x0201 := by
  decide

/-- T40. -/
theorem test_ld_imm : (after 0x6FFF State.reset).getV 15 = 0xFF := by decide

/-- T41, T43. -/
theorem test_add_imm :
    (after 0x71FF (regs [(1, 1), (15, 7)])).getV 1 = 0 ∧
    (after 0x71FF (regs [(1, 1), (15, 7)])).getV 15 = 7 ∧
    (after 0x7F01 (regs [(15, 0xFF)])).getV 15 = 0 := by decide

/-- T44. -/
theorem test_ld_reg :
    (after 0x8120 (regs [(2, 0xAB)])).getV 1 = 0xAB ∧ (after 0x8120 (regs [(2, 0xAB)])).getV 2 = 0xAB := by
  decide

/-- T45. -/
theorem test_or :
    (after 0x8121 (regs [(1, 0x50), (2, 0x05), (15, 9)])).getV 1 = 0x55 ∧
    (after 0x8121 (regs [(1, 0x50), (2, 0x05), (15, 9)])).getV 15 = 9 := by decide

/-- T46. -/
theorem test_and :
    (after 0x8122 (regs [(1, 0x5C), (2, 0x35), (15, 9)])).getV 1 = 0x14 ∧
    (after 0x8122 (regs [(1, 0x5C), (2, 0x35), (15, 9)])).getV 15 = 9 := by decide

/-- T47. -/
theorem test_xor :
    (after 0x8123 (regs [(1, 0x5C), (2, 0x35), (15, 9)])).getV 1 = 0x69 ∧
    (after 0x8123 (regs [(1, 0x5C), (2, 0x35), (15, 9)])).getV 15 = 9 := by decide

/-- T52, T54. -/
theorem test_add_reg :
    (after 0x8124 (regs [(1, 0x80), (2, 0x7F), (15, 1)])).getV 15 = 0 ∧
    (after 0x81F4 (regs [(1, 0xFF), (15, 1)])).getV 1 = 0 ∧
    (after 0x81F4 (regs [(1, 0xFF), (15, 1)])).getV 15 = 1 := by decide

/-- T55, T57. -/
theorem test_sub :
    (after 0x8125 (regs [(1, 5), (2, 7)])).getV 1 = 0xFE ∧
    (after 0x8125 (regs [(1, 5), (2, 7)])).getV 15 = 0 ∧
    (after 0x8125 (regs [(1, 7), (2, 7)])).getV 15 = 1 := by decide

/-- T64, T65. -/
theorem test_shr :
    (after 0x8106 (regs [(15, 1)])).getV 15 = 0 ∧ (after 0x8106 (regs [(1, 0xFF)])).getV 1 = 0x7F ∧
    (after 0x8106 (regs [(1, 0xFF)])).getV 15 = 1 := by decide

/-- T66, T67. -/
theorem test_subn :
    (after 0x8127 (regs [(1, 5), (2, 7)])).getV 1 = 2 ∧
    (after 0x8127 (regs [(1, 7), (2, 5)])).getV 1 = 0xFE ∧
    (after 0x8127 (regs [(1, 7), (2, 5)])).getV 15 = 0 := by decide

/-- T70, T71: `y` is ignored. -/
theorem test_shl :
    (after 0x810E (regs [(1, 0x81)])).getV 1 = 2 ∧ (after 0x810E (regs [(1, 0x81)])).getV 15 = 1 ∧
    (after 0x812E (regs [(1, 0x40), (2, 0xFF)])).getV 1 = 0x80 := by decide

/-- T80 to T85, under `listed_order`. -/
theorem test_alias_listed_order :
    (after 0x8F14 (regs [(15, 0xFF), (1, 2)])).getV 15 = 1 ∧
    (after 0x8F15 (regs [(15, 5), (1, 2)])).getV 15 = 3 ∧
    (after 0x8F16 (regs [(15, 5)])).getV 15 = 2 ∧
    (after 0x8F17 (regs [(15, 5), (1, 9)])).getV 15 = 4 ∧
    (after 0x8F1E (regs [(15, 0x85)])).getV 15 = 0x0A := by decide

/-- What a result answers in a register. -/
def regOfResult (r : Result) (x : Reg) : Option Byte :=
  match r with
  | .next t => some (t.getV x)
  | .fault _ => none
  | .refused _ => none

/-- T81, T83 under `flag_wins` and `result_wins`. -/
theorem test_alias_other_policies :
    regOfResult (execAddRegUnder .flagWins 15 1 (regs [(15, 1), (1, 2)])) 15 = some 0 ∧
    regOfResult (execAddRegUnder .resultWins 15 1 (regs [(15, 1), (1, 2)])) 15 = some 3 ∧
    regOfResult (execShrUnder .flagWins 15 1 (regs [(15, 5)])) 15 = some 1 ∧
    regOfResult (execShrUnder .resultWins 15 1 (regs [(15, 5)])) 15 = some 2 := by decide

/-- T76, for every draw. -/
theorem test_rnd_with_zero_mask : (after 0xC100 (regs [(1, 0x55)])).getV 1 = 0 := by
  show Config.drawByte 0 &&& 0 = 0
  exact BitVec.and_zero

/-- T90. -/
theorem test_ld_index : (after 0xAFFF State.reset).i = 0x0FFF := by decide

/-- T94, T95. -/
theorem test_add_index :
    (after 0xF21E (at_ (regs [(2, 1), (15, 5)]) 0xFFFF)).i = 0 ∧
    (after 0xF21E (at_ (regs [(2, 1), (15, 5)]) 0xFFFF)).getV 15 = 5 ∧
    (after 0xF21E (at_ (regs [(2, 0xFF)]) 0xFF80)).i = 0x007F := by decide

/-- T97, T99. -/
theorem test_ld_font :
    (after 0xF329 (regs [(3, 0x1A)])).i = 0x0032 ∧ (after 0xF329 (regs [(3, 0xFF)])).i = 0x004B := by
  decide

/-- T103. -/
theorem test_bcd_at_last_legal_address :
    (after 0xF033 (at_ (regs [(0, 255)]) 0xFFD)).mem.read 0xFFD = 2 ∧
    (after 0xF033 (at_ (regs [(0, 255)]) 0xFFD)).mem.read 0xFFF = 5 := by decide

/-- T104, T105. -/
theorem test_bcd_out_of_range :
    (after 0xF033 (at_ (regs [(0, 255)]) 0xFFE)).run =
      .faulted ⟨.memOutOfRange, 0x1000, 0x200, 0xF033⟩ ∧
    (after 0xF033 (at_ (regs [(0, 255)]) 0xFFE)).mem.read 0xFFE = 0 ∧
    (after 0xF033 (at_ (regs [(0, 100)]) 0xFFFF)).run =
      .faulted ⟨.memOutOfRange, 0xFFFF, 0x200, 0xF033⟩ := by decide

/-- What a result answers at an address. -/
def byteOfResult (r : Result) (a : Nat) : Option Byte :=
  match r with
  | .next t => some (t.mem.read a)
  | .fault _ => none
  | .refused _ => none

/-- T115, T116. -/
theorem test_bcd_under_wrap :
    byteOfResult (execBcdUnder .wrap 0 (at_ (regs [(0, 255)]) 0xFFE)) 0 = some 5 ∧
    byteOfResult (execBcdUnder .wrap 0 (at_ (regs [(0, 100)]) 0xFFFF)) 0xFFF = some 1 := by decide

/-- T106, T108. -/
theorem test_store_regs :
    (after 0xF255 (at_ (regs [(0, 0x11), (1, 0x22), (2, 0x33), (3, 0x44)]) 0x300)).mem.read 0x302 = 0x33 ∧
    (after 0xF255 (at_ (regs [(0, 0x11), (1, 0x22), (2, 0x33), (3, 0x44)]) 0x300)).mem.read 0x303 = 0 ∧
    (after 0xF155 (at_ (regs [(0, 0x11), (1, 0x22)]) 0xFFF)).run =
      .faulted ⟨.memOutOfRange, 0x1000, 0x200, 0xF155⟩ := by decide

/-- T112: the instruction reads its own bytes. -/
theorem test_load_regs_reads_code :
    (after 0xF165 (at_ State.reset 0x200)).getV 0 = 0xF1 ∧
    (after 0xF165 (at_ State.reset 0x200)).getV 1 = 0x65 := by decide

/-- T113. -/
theorem test_load_regs_reads_font :
    (after 0xFF65 (at_ State.reset 0)).getV 5 = 0x20 ∧
    (after 0xFF65 (at_ State.reset 0)).getV 15 = 0xF0 := by decide

/-- T122: the origin is not reduced, each pixel is. -/
theorem test_drw_wraps_each_pixel :
    (after 0xD121 (bytes (at_ (regs [(1, 255), (2, 255)]) 0x300) 0x300 [0xFF])).fb =
      screen [1984, 1985, 1986, 1987, 1988, 1989, 1990, 2047] := by decide

/-- T123: the second row wraps to the top and collides. -/
theorem test_drw_collides :
    (after 0xD122 { bytes (at_ (regs [(1, 0), (2, 31)]) 0x300) 0x300 [0xFF, 0x81] with
        fb := screen [0] }).fb = screen [7, 1984, 1985, 1986, 1987, 1988, 1989, 1990, 1991] ∧
    (after 0xD122 { bytes (at_ (regs [(1, 0), (2, 31)]) 0x300) 0x300 [0xFF, 0x81] with
        fb := screen [0] }).getV 15 = 1 := by decide

/-- T130. -/
theorem test_cls :
    (after 0x00E0 { regs [(15, 1)] with fb := screen [0, 100, 2047] }).fb = screen [] ∧
    (after 0x00E0 { regs [(15, 1)] with fb := screen [0, 100, 2047] }).getV 15 = 1 := by decide

/-- T141, T142. -/
theorem test_skp :
    (after 0xE49E ((regs [(4, 0x17)]).setKeyBit 7 true)).pc = 0x204 ∧
    (after 0xE49E (regs [(4, 0x07)])).pc = 0x202 := by decide

/-- T143, T144. -/
theorem test_sknp :
    (after 0xE4A1 (regs [(4, 0x07)])).pc = 0x204 ∧
    (after 0xE4A1 ((regs [(4, 0xF7)]).setKeyBit 7 true)).pc = 0x202 := by decide

/-- T145. -/
theorem test_ld_from_dt : (after 0xF307 (State.reset.setDt 0x2C)).getV 3 = 0x2C := by decide

/-- T146. -/
theorem test_ld_dt : (after 0xF315 (regs [(3, 0x3C)])).dt = 0x3C := by decide

/-- T148. -/
theorem test_ld_st :
    (after 0xF318 (regs [(3, 5)])).st = 5 ∧ (after 0xF318 (regs [(3, 5)])).soundOn = true := by decide

/-- T151. -/
theorem test_ld_key :
    (after 0xF30A State.reset).run = .waitKey 3 ∧ (after 0xF30A State.reset).pc = 0x200 := by decide

/-- A state in which Fx0A waits with register `r`. -/
def waiting (r : Reg) : State := State.reset.setRun (.waitKey r)

/-- T153, T156. -/
theorem test_key_press_ends_wait :
    ((waiting 3).pressKey 7 true).getV 3 = 7 ∧ ((waiting 3).pressKey 7 true).pc = 0x202 ∧
    ((waiting 3).pressKey 7 true).run = .running ∧
    (((waiting 15).setV 15 9).pressKey 0 true).getV 15 = 0 := by decide

/-- T154, T155. -/
theorem test_key_events_that_do_not_end_wait :
    ((waiting 3).setKeyBit 5 true).pressKey 5 true = (waiting 3).setKeyBit 5 true ∧
    (((waiting 3).setKeyBit 5 true).pressKey 5 false).run = .waitKey 3 := by decide

/-- T149. -/
theorem test_tick :
    ((State.reset.setDt 2).setSt 1).tick.dt = 1 ∧ ((State.reset.setDt 2).setSt 1).tick.st = 0 ∧
    (State.reset.tick).dt = 0 := by decide

/-- T173. -/
theorem test_reset_with_odd_image :
    ((waiting 3).resetWith [0x60, 0x07, 0x12]).mem.read 0x202 = 0x12 ∧
    ((waiting 3).resetWith [0x60, 0x07, 0x12]).mem.read 0x203 = 0 ∧
    ((waiting 3).resetWith [0x60, 0x07, 0x12]).run = .running := by decide

/-- The lines of R79 for two instructions. -/
theorem test_asm_text :
    (Instr.drw 1 2 2).asmText = "DRW V1, V2, 0x2" ∧ (Instr.storeRegs 1).asmText = "LD [I], V1" := by
  decide

/-- The outputs in the fault state and outside it (R210, R235). -/
theorem test_fault_outputs :
    (after 0x00EE State.reset).faultOutputs = some (3, 0, 0x200, 0x00EE) ∧
    State.reset.faultOutputs = none ∧ (after 0x00EE State.reset).runStatus = .faulted := by decide

/-! ## Witnesses: the hypotheses of each statement are met, at the boundaries of each clause -/

/-- EncodeOfDecode. -/
theorem witness_encode_of_decode : decode 0x812E = .ok (.shl 1 2) := by decide

/-- DecoderAgreesWithOpcodeTable: a row, and a word of it. -/
theorem witness_table_row :
    (⟨"SHL", 0xF00F, 0x800E⟩ : OpcodeRow) ∈ opcodeTable ∧ (0x812E : Word) &&& 0xF00F = 0x800E := by
  decide

/-- StepRunsDecodedInstruction: nothing known to come, with a word that decodes where `pc` is. -/
theorem witness_step_runs_open :
    (let s := (State.reset.withFetchWord 16 0x2300).setAgenda []
     s.agenda = [] ∧ s.run = .running ∧ s.pc.toNat % 2 = 0 ∧ 0x200 ≤ s.pc.toNat ∧ s.pc.toNat ≤ 0xFFE ∧
       (0x2300 : Word).toNat = (s.mem.read s.pc.toNat).toNat * 256 + (s.mem.read (s.pc.toNat + 1)).toNat ∧
       decode 0x2300 = .ok (.call 0x300)) := by decide

/-- StepRunsDecodedInstruction, EngineStepInOrder: a program's first instruction at 0x200 and one at
the highest address a fetch may have. -/
theorem witness_step_runs :
    (let s := State.reset.withFetchWord 16 0x2300
     s.agenda = [.engine] ∧ s.run = .running ∧ s.pc.toNat % 2 = 0 ∧ 0x200 ≤ s.pc.toNat ∧ s.pc.toNat ≤ 0xFFE ∧
       (0x2300 : Word).toNat = (s.mem.read s.pc.toNat).toNat * 256 + (s.mem.read (s.pc.toNat + 1)).toNat ∧
       decode 0x2300 = .ok (.call 0x300)) ∧
    (let s := (State.reset.setPc 0xFFE).withFetchWord 16 0x2300
     s.agenda = [.engine] ∧ s.run = .running ∧ s.pc.toNat % 2 = 0 ∧ s.pc.toNat = 0xFFE ∧
       (0x2300 : Word).toNat =
         (s.mem.read s.pc.toNat).toNat * 256 + (s.mem.read (s.pc.toNat + 1)).toNat) := by decide

/-- EngineStepInOrder: each way an address cannot be fetched from, at its boundary. -/
theorem witness_pc_invalid :
    (State.reset.setPc 0x201).run = .running ∧ (State.reset.setPc 0x201).pc.toNat % 2 = 1 ∧
    (State.reset.setPc 0x1FE).pc.toNat < 0x200 ∧ 0xFFE < (State.reset.setPc 0x1000).pc.toNat := by decide

/-- EngineStepInOrder: a word at `pc` that is no instruction. -/
theorem witness_invalid_instruction :
    State.reset.run = .running ∧ State.reset.pc.toNat = 0x200 ∧
    (0 : Word).toNat = (State.reset.mem.read 0x200).toNat * 256 + (State.reset.mem.read 0x201).toNat ∧
    ∀ i, decode 0 ≠ .ok i := by
  refine ⟨by decide, by decide, by decide, fun i h => ?_⟩
  have h0 : decode 0 = .error .group0 := by decide
  rw [h0] at h
  cases h

/-- A fault record. -/
def record : FaultRecord := ⟨.stackUnderflow, 0, 0x200, 0x00EE⟩

/-- A faulted state. -/
def faulted : State := State.reset.setRun (.faulted record)

/-- EngineHeldUnlessRunning. -/
theorem witness_engine_held :
    (∃ r, (waiting 3).run = .waitKey r) ∧ ∃ rec, faulted.run = .faulted rec :=
  ⟨⟨3, rfl⟩, ⟨record, rfl⟩⟩

/-- StepIsTheNextTransaction: both clauses. -/
theorem witness_agenda :
    State.reset.agenda = [] ∧ (State.reset.setAgenda [.tick, .engine]).agenda = .tick :: [.engine] :=
  ⟨rfl, rfl⟩

/-- PlacedWordRunsNext, at both ends of the addresses that can be fetched from. -/
theorem witness_placed_word :
    decode 0x00E0 = .ok .cls ∧
    (State.reset.pc.toNat % 2 = 0 ∧ 0x200 ≤ State.reset.pc.toNat ∧ State.reset.pc.toNat ≤ 0xFFE) ∧
    ((State.reset.setPc 0xFFE).pc.toNat % 2 = 0 ∧ 0x200 ≤ (State.reset.setPc 0xFFE).pc.toNat ∧
      (State.reset.setPc 0xFFE).pc.toNat ≤ 0xFFE) ∧ ¬(0x300 = State.reset.pc.toNat) := by decide

/-- FaultsArePrecise: a fault with nothing fetched. -/
theorem witness_precise_pc_invalid :
    ∃ t rec, (State.reset.setPc 0x201).run = .running ∧
      engineStep (State.reset.setPc 0x201) = .next t ∧ t.run = .faulted rec ∧
      rec.cause = .pcInvalid := ⟨_, _, rfl, rfl, rfl, rfl⟩

/-- FaultsArePrecise: a fault of the word fetched. -/
theorem witness_precise_invalid_instruction :
    ∃ t rec, State.reset.run = .running ∧ engineStep State.reset = .next t ∧ t.run = .faulted rec ∧
      rec.cause ≠ .pcInvalid := ⟨_, _, rfl, rfl, rfl, by decide⟩

/-- FaultsByInstruction: each of its causes. -/
theorem witness_faults_by_instruction :
    (∃ t rec, (depth State.reset 16 0).run = .running ∧
      exec (.call 0x300) (depth State.reset 16 0) = .next t ∧ t.run = .faulted rec ∧
      rec.cause = .stackOverflow) ∧
    (∃ t rec, exec .ret State.reset = .next t ∧ t.run = .faulted rec ∧ rec.cause = .stackUnderflow) ∧
    (∃ t rec, exec (.storeRegs 1) (at_ State.reset 0xFFF) = .next t ∧ t.run = .faulted rec ∧
      rec.cause = .memOutOfRange) := by
  refine ⟨⟨_, _, rfl, rfl, rfl, rfl⟩, ⟨_, _, rfl, rfl, rfl⟩, ⟨_, _, rfl, rfl, rfl⟩⟩

/-- CallPushesOrOverflows, RetUndoesCall: the last depth with room, and the full stack. -/
theorem witness_call :
    (depth State.reset 15 0x202).sp.val = (15 : Fin 16).val ∧ (depth State.reset 15 0x202).sp.val < 16 ∧
    State.reset.sp.val = (0 : Fin 16).val ∧ (depth State.reset 16 0x202).sp.val = 16 ∧
    (14 : Fin 16) ≠ 15 := by decide

/-- RetPopsOrUnderflows: the full stack, one entry, and the empty stack. -/
theorem witness_ret :
    (depth State.reset 16 0x202).sp.val = (15 : Fin 16).val + 1 ∧
    (depth State.reset 1 0x202).sp.val = (0 : Fin 16).val + 1 ∧ State.reset.sp.val = 0 := by decide

/-- RegisterSkips: each comparison holding and failing. -/
theorem witness_register_skips :
    ((regs [(1, 5)]).getV 1).toNat = (5 : Byte).toNat ∧ ((regs [(1, 5)]).getV 1).toNat ≠ (6 : Byte).toNat ∧
    ((regs [(1, 5), (2, 5)]).getV 1).toNat = ((regs [(1, 5), (2, 5)]).getV 2).toNat ∧
    ((regs [(1, 5)]).getV 1).toNat ≠ ((regs [(1, 5)]).getV 2).toNat := by decide

/-- AddAndSubtractWithFlag, ShiftsWithFlag, FlagDestinationUnderEveryPolicy: a destination that is not
VF, a sum just over 255 and one of 255, equal operands and a borrow. -/
theorem witness_flags :
    (1 : Reg) ≠ vf ∧
    ((regs [(1, 0xFF), (2, 1)]).getV 1).toNat + ((regs [(1, 0xFF), (2, 1)]).getV 2).toNat > 255 ∧
    ¬((regs [(1, 0x80), (2, 0x7F)]).getV 1).toNat + ((regs [(1, 0x80), (2, 0x7F)]).getV 2).toNat > 255 ∧
    ((regs [(1, 7), (2, 7)]).getV 1).toNat ≥ ((regs [(1, 7), (2, 7)]).getV 2).toNat ∧
    ¬((regs [(1, 6), (2, 7)]).getV 1).toNat ≥ ((regs [(1, 6), (2, 7)]).getV 2).toNat := by decide

/-- RndMasksAFreeByte: a bit that is 0 in the mask. -/
theorem witness_rnd_mask : (0x0F : Byte).getLsbD 4 = false := by decide

/-- BcdStoresDigits, at the last address at which it runs. -/
theorem witness_bcd : (at_ State.reset 0xFFD).i.toNat + 2 < 4096 := by decide

/-- StoreRegsStores, LoadRegsLoads, LoadRegsReadsBackStoreRegs, at the last address for `x = 0xF` and
for `x = 0`, with the last register in question. -/
theorem witness_store_load :
    (at_ State.reset 0xFF0).i.toNat + (15 : Reg).val < 4096 ∧ (15 : Reg) ≤ 15 ∧
    (at_ State.reset 0xFFF).i.toNat + (0 : Reg).val < 4096 ∧ (0 : Reg) ≤ 0 := by decide

/-- LoadRegsReadsBackStoreRegs: the state the store left is one the load may start in. -/
theorem witness_load_after_store :
    ∃ t, exec (.storeRegs 0) (at_ State.reset 0xFFF) = .next t ∧
      ∃ t' : State, t'.mem = t.mem ∧ t'.i = (at_ State.reset 0xFFF).i ∧ t' ≠ t :=
  ⟨_, rfl, (at_ State.reset 0xFFF).setMem _, rfl, rfl, fun h => absurd (congrArg State.pc h) (by decide)⟩

/-- OutOfRangeAccessFaults: each clause at the first address at which it holds, where the first
offending address is 4096, and one with `I` itself outside. -/
theorem witness_out_of_range :
    (0x1000 : Word).toNat = max (at_ State.reset 0xFFE).i.toNat 4096 ∧
    4096 ≤ (at_ State.reset 0xFFE).i.toNat + 2 ∧
    (0x1000 : Word).toNat = max (at_ State.reset 0xFF1).i.toNat 4096 ∧
    4096 ≤ (at_ State.reset 0xFF1).i.toNat + (15 : Reg).val ∧
    (0x1000 : Word).toNat = max (at_ State.reset 0xFF2).i.toNat 4096 ∧ 0 < (15 : BitVec 4).toNat ∧
    4096 ≤ (at_ State.reset 0xFF2).i.toNat + (15 : BitVec 4).toNat - 1 ∧
    (0xFFFF : Word).toNat = max (at_ State.reset 0xFFFF).i.toNat 4096 ∧
    4096 ≤ (at_ State.reset 0xFFFF).i.toNat + (0 : Reg).val := by decide

/-- StoreIsSeenByTheNextFetch: P8's store. -/
theorem witness_store_seen :
    1 ≤ (1 : Reg).val ∧ (at_ (State.reset.setPc 0x206) 0x208).i = (at_ (State.reset.setPc 0x206) 0x208).pc + 2 ∧
    (at_ (State.reset.setPc 0x206) 0x208).i.toNat + (1 : Reg).val < 4096 := by decide

/-- DrwFlipsTheSpritesCells: no rows at an address outside memory, the last address for 15 rows, and
16 bytes past which it does not run. -/
theorem witness_drw_runs :
    ((0 : BitVec 4).toNat = 0 ∨ (at_ State.reset 0xFFFF).i.toNat + (0 : BitVec 4).toNat ≤ 4096) ∧
    ((15 : BitVec 4).toNat = 0 ∨ (at_ State.reset 0xFF1).i.toNat + (15 : BitVec 4).toNat ≤ 4096) ∧
    ¬((15 : BitVec 4).toNat = 0 ∨ (at_ State.reset 0xFF2).i.toNat + (15 : BitVec 4).toNat ≤ 4096) := by decide

/-- A one-row sprite of one pixel in the corner (63, 31), on a blank screen: T120. -/
def corner : State := bytes (at_ (regs [(1, 63), (2, 31)]) 0x300) 0x300 [0x80]

/-- DrwFlipsTheSpritesCells: a cell the sprite meets, one it does not, and a collision. -/
theorem witness_drw_cells :
    SpriteMeets corner 63 31 1 2047 ∧ ¬SpriteMeets corner 63 31 1 0 ∧
    (SpriteMeets { corner with fb := screen [2047] } 63 31 1 2047 ∧
      State.getFb { corner with fb := screen [2047] } 2047 = true) ∧
    ¬∃ c, SpriteMeets corner 63 31 1 c ∧ corner.getFb c = true := by
  have blank : ∀ c, corner.getFb c = false := fun c => Framebuffer.get_blank c
  refine ⟨⟨0, 0, by decide, by decide, by decide, by decide⟩, ?_, ⟨⟨0, 0, by decide, by decide, by decide, by decide⟩, by decide⟩, ?_⟩
  · rintro ⟨r, k, hr, hk, hb, hc⟩
    have h0 : r = 0 := by omega
    subst h0
    simp at hc
    omega
  · rintro ⟨c, -, hc⟩
    rw [blank c] at hc
    cases hc

/-- A two-row sprite whose second row is the byte at address 0, the first of the font, drawn at (0, 0). -/
def wrapped : State := at_ State.reset 0xFFF

/-- WrapPolicyDrawsRowsModulo: a cell its wrapped row meets, one it does not, a collision and none. -/
theorem witness_drw_wrapped :
    SpriteMeetsWrapped wrapped 0 0 2 64 ∧ ¬SpriteMeetsWrapped wrapped 0 0 2 2047 ∧
    (SpriteMeetsWrapped { wrapped with fb := screen [64] } 0 0 2 64 ∧
      State.getFb { wrapped with fb := screen [64] } 64 = true) ∧
    ¬∃ c, SpriteMeetsWrapped wrapped 0 0 2 c ∧ wrapped.getFb c = true := by
  have blank : ∀ c, wrapped.getFb c = false := fun c => Framebuffer.get_blank c
  refine ⟨⟨1, 0, by decide, by decide, by decide, by decide⟩, ?_,
    ⟨⟨1, 0, by decide, by decide, by decide, by decide⟩, by decide⟩, ?_⟩
  · rintro ⟨r, k, hr, hk, -, hc⟩
    simp at hc
    omega
  · rintro ⟨c, -, hc⟩
    rw [blank c] at hc
    cases hc

/-- A Dxyn under `wrap`: its second row is the font's first byte, 0xF0 (R54), which collides here. -/
theorem test_drw_under_wrap :
    regOfResult (execDrwUnder .wrap 1 2 2 { wrapped with fb := screen [64] }) 15 = some 1 ∧
    regOfResult (execDrwUnder .wrap 1 2 2 wrapped) 15 = some 0 := by decide

/-- DrawingTwiceRestoresTheScreen: a sprite with a set bit and one without, on a blank screen. -/
theorem witness_drawing_twice :
    (1 : Reg) ≠ vf ∧ (2 : Reg) ≠ vf ∧ corner.i.toNat + (1 : BitVec 4).toNat ≤ 4096 ∧
    (∀ c : CellIx, corner.getFb c = false) ∧
    (∃ r, r < (1 : BitVec 4).toNat ∧ corner.mem.read (corner.i.toNat + r) ≠ 0) ∧
    (∀ r, r < (1 : BitVec 4).toNat →
      (at_ State.reset 0x300).mem.read ((at_ State.reset 0x300).i.toNat + r) = 0) := by
  refine ⟨by decide, by decide, by decide, fun c => Framebuffer.get_blank c, ⟨0, by decide, by decide⟩, ?_⟩
  intro r hr
  have h0 : r = 0 := by simp at hr; exact hr
  subst h0
  decide

/-- KeySkips: a key of a register above 15, up and down. -/
theorem witness_key_skips :
    (7 : KeyIx).val = ((regs [(4, 0x17)]).getV 4).toNat % 16 ∧ (regs [(4, 0x17)]).getKey 7 = false ∧
    ((regs [(4, 0x17)]).setKeyBit 7 true).getKey 7 = true ∧
    (7 : KeyIx).val = (((regs [(4, 0x17)]).setKeyBit 7 true).getV 4).toNat % 16 := by decide

/-- KeyPressEndsTheWait. -/
theorem witness_key_press : (waiting 3).run = .waitKey 3 ∧ (waiting 3).getKey 0 = false := by decide

/-- OtherKeyEventsOnlySetTheLatch: each of its three cases, the others not holding. -/
theorem witness_other_key_events :
    ((false = false) ∧ (waiting 3).getKey 5 = false) ∧
    ((waiting 3).setKeyBit 5 true).getKey 5 = true ∧
    (∀ r, State.reset.run ≠ .waitKey r) ∧ ∀ r, faulted.run ≠ .waitKey r := by
  refine ⟨by decide, by decide, fun r h => ?_, fun r h => ?_⟩ <;> cases h

/-- TicksReachZero: more ticks than the timer holds. -/
theorem witness_ticks :
    ((State.reset.setDt 2).setAgenda [.tick, .tick, .tick]).agenda = List.replicate 3 .tick := by decide

/-- ResetRebuildsEveryField, OversizeImageIsRefused: the largest image and the first too large. -/
theorem witness_image_lengths :
    (List.replicate 3584 (0x12 : Byte)).length ≤ 3584 ∧ 3584 < (List.replicate 3585 (0x12 : Byte)).length ∧
    ([] : Rom).length ≤ 3584 := by
  rw [List.length_replicate, List.length_replicate]; decide

/-- ResetRebuildsEveryField, ResetStateValues: an address of each part of memory, at its boundary. -/
theorem witness_reset_addresses :
    (2 < ([0x60, 0x07, 0x12] : Rom).length) ∧ 79 < 80 ∧ (80 ≤ 80 ∧ 80 < 0x200) ∧ (80 ≤ 0x1FF ∧ 0x1FF < 0x200) ∧
    0x200 + ([0x60, 0x07, 0x12] : Rom).length ≤ 0x203 := by decide

/-- FaultedStateIsFrozen: a tick, and an accepted reset. -/
theorem witness_faulted :
    (∃ t, (faulted.setAgenda [.tick]).run = .faulted record ∧
      step (faulted.setAgenda [.tick]) = .next t) ∧
    ∃ t, (faulted.setAgenda [.reset []]).run = .faulted record ∧
      step (faulted.setAgenda [.reset []]) = .next t :=
  ⟨⟨_, rfl, rfl⟩, ⟨_, rfl, rfl⟩⟩

/-- WaitEndsOnlyByPressOrReset: a press, a reset, and a tick. -/
theorem witness_wait :
    (∃ t, ((waiting 3).setAgenda [.setKey 7 true]).run = .waitKey 3 ∧
      step ((waiting 3).setAgenda [.setKey 7 true]) = .next t ∧ t.run = .running) ∧
    (∃ t, step ((waiting 3).setAgenda [.reset []]) = .next t ∧ t.run = .running) ∧
    ∃ t, step ((waiting 3).setAgenda [.tick]) = .next t ∧ t.run = .waitKey 3 :=
  ⟨⟨_, rfl, rfl, by decide⟩, ⟨_, rfl, by decide⟩, ⟨_, rfl, by decide⟩⟩

/-- OnlyNamedInstructionsWriteEachPart: an instruction that changes each part. -/
theorem witness_writers :
    (∃ t, exec (.ldIndex 0x300) State.reset = .next t ∧ t.i ≠ State.reset.i) ∧
    (∃ t, exec (.call 0x300) State.reset = .next t ∧ t.stack ≠ State.reset.stack ∧
      t.sp ≠ State.reset.sp) ∧
    (∃ t, exec (.ldDt 1) (regs [(1, 5)]) = .next t ∧ t.dt ≠ (regs [(1, 5)]).dt) ∧
    (∃ t, exec (.ldSt 1) (regs [(1, 5)]) = .next t ∧ t.st ≠ (regs [(1, 5)]).st) ∧
    (∃ t, exec (.drw 1 2 1) corner = .next t ∧ t.fb ≠ corner.fb) ∧
    (∃ t, exec (.rnd 1 0xFF) State.reset = .next t ∧ t.draws ≠ State.reset.draws) ∧
    (∃ t, exec (.bcd 1) (at_ (regs [(1, 5)]) 0x300) = .next t ∧
      t.mem.read 0x302 ≠ (at_ (regs [(1, 5)]) 0x300).mem.read 0x302) ∧
    ∃ t, exec (.ldKey 1) State.reset = .next t ∧ t.run ≠ State.reset.run :=
  ⟨⟨_, rfl, by decide⟩, ⟨_, rfl, by decide, by decide⟩, ⟨_, rfl, by decide⟩, ⟨_, rfl, by decide⟩,
    ⟨_, rfl, by decide⟩, ⟨_, rfl, by decide⟩, ⟨_, rfl, by decide⟩, ⟨_, rfl, by decide⟩⟩

/-- OnlySixInstructionsWriteTheFlag: a side effect, and a named destination. -/
theorem witness_flag_writers :
    (∃ t, exec (.addReg 1 2) (regs [(1, 0xFF), (2, 1)]) = .next t ∧
      t.getV vf ≠ (regs [(1, 0xFF), (2, 1)]).getV vf) ∧
    ∃ t, exec (.ldImm 15 1) State.reset = .next t ∧ t.getV vf ≠ State.reset.getV vf :=
  ⟨⟨_, rfl, by decide⟩, ⟨_, rfl, by decide⟩⟩

/-- SelfJumpIsAFixedPoint: T12. -/
theorem witness_finished :
    (State.reset.withFetchWord 16 0x1200).finished ∧
    (State.reset.withFetchWord 16 0x1200).agenda = .engine :: [] :=
  ⟨⟨rfl, by decide, 0x200, by decide, by decide⟩, rfl⟩

/-- RunsFollowTheOpenOrder: a state whose order is open, and one with transactions known to come. -/
theorem witness_runs :
    State.reset.agenda = [] ∧ (State.reset.setAgenda [.setKey 7 true, .tick]).agenda.length = 2 :=
  ⟨rfl, rfl⟩

/-- A program of one word, loaded by a reset and run for one step: T173's image. -/
theorem test_program_runs_after_reset : ∀ t,
    Host.Core.run Sys2Proof.core 2 (State.reset.setAgenda [.reset [0x60, 0x07, 0x12], .engine]) =
      .next t → t.getV 0 = 7 ∧ t.pc = 0x202 := by
  intro t h; injection h with h; subst h; decide

/-- A call at 0x200 with a return address on the stack, waiting for nothing. -/
def called : State := (depth State.reset 1 0x1000).withFetchWord 16 0x2300

/-- StepKeepsTheInvariant: a state with a live stack entry, and its next state. -/
theorem witness_invariant : Inv called ∧ ∃ t, step called = .next t := by
  refine ⟨⟨by decide, ?_, by decide, ?_, ?_⟩, _, rfl⟩
  · decide
  · intro r h; cases h
  · intro r h; cases h

/-- StepKeepsTheInvariant: a state that waits and one that is faulted meet it too. -/
theorem witness_invariant_held : Inv (waiting 3) ∧ Inv faulted := by
  refine ⟨⟨by decide, by decide, by decide, ?_, ?_⟩, ⟨by decide, by decide, by decide, ?_, ?_⟩⟩
  · intro r _; decide
  · intro r h; cases h
  · intro r h; cases h
  · intro r h
    simp only [faulted, State.setRun, RunState.faulted.injEq] at h
    subst h; rfl

/-- DeadStackEntriesAreUnobservable: two states that differ in a dead entry. -/
theorem witness_dead_entries :
    SameButDeadEntries called { called with stack := called.stack.set 1 0x204 } ∧
    { called with stack := called.stack.set 1 0x204 } ≠ called ∧ ∃ t, step called = .next t := by
  refine ⟨⟨rfl, by decide, rfl⟩, by decide, _, rfl⟩

end Sys2Proof.Tests
end

section
/-! SUPPORT. The fields of an opcode as numbers, from its word and from its two bytes
(spec/30_encoding.md R71). -/

namespace Sys2Proof

/-- The fields of the opcode at `pc` in terms of `hi`, the byte at `pc`, and `lo`, the byte at
`pc + 1` (R71): each half of a byte is a field, and `lo` itself is `nn`. -/
theorem fieldsOf_append (hi lo : Byte) :
    (fieldsOf (hi ++ lo)).group.toNat = hi.toNat / 16 ∧
    (fieldsOf (hi ++ lo)).x.toNat = hi.toNat % 16 ∧
    (fieldsOf (hi ++ lo)).nn = lo ∧
    (fieldsOf (hi ++ lo)).y.toNat = lo.toNat / 16 ∧
    (fieldsOf (hi ++ lo)).n.toNat = lo.toNat % 16 := by
  have hlo := lo.isLt
  have word_toNat : (hi ++ lo : Word).toNat = hi.toNat * 2 ^ 8 + lo.toNat := toNat_append_eq hi lo
  refine ⟨?group, ?x, ?nn, ?y, ?n⟩
  case group => rw [fieldsOf_group_toNat, word_toNat]; omega
  case x => rw [fieldsOf_x_toNat, word_toNat]; omega
  case nn => apply BitVec.eq_of_toNat_eq; rw [fieldsOf_nn_toNat, word_toNat]; omega
  case y => rw [fieldsOf_y_toNat, word_toNat]; omega
  case n => rw [fieldsOf_n_toNat, word_toNat]; omega

/-- Settles O2: the fields of a word are the quotients and remainders the laws of `fieldsOf` give,
and those of a word of two bytes follow from the word being `hi * 2 ^ 8 + lo`. -/
theorem fieldsOfAnOpcode : Obligations.FieldsOfAnOpcode :=
  ⟨fun w => ⟨fieldsOf_group_toNat w, fieldsOf_x_toNat w, fieldsOf_y_toNat w, fieldsOf_n_toNat w,
    fieldsOf_nn_toNat w, fieldsOf_nnn_toNat w⟩, fieldsOf_append⟩

end Sys2Proof
end

section
/-! SUPPORT. Decoding and encoding are inverse to each other (spec/30_encoding.md R73, R74), so the
words of an instruction are the one its encoding gives. -/

namespace Sys2Proof

/-! ## What a word of each sub-group decodes to encodes to that word -/

theorem encode_of_dispatch0 {op : Word} {i : Instr} (h : dispatch0 op = .ok i) :
    encode i = op := by
  unfold dispatch0 at h
  split_ifs at h with hcls hret <;> cases h
  · exact hcls.symm
  · exact hret.symm

theorem encode_of_dispatch8 {x y : Reg} {n : BitVec 4} {i : Instr} (h : dispatch8 x y n = .ok i) :
    encode i = wordOfNibbles 0x8 (regBits x) (regBits y) n := by
  unfold dispatch8 at h
  split_ifs at h with hn <;> cases h <;> subst n <;> rfl

theorem encode_of_dispatchE {x : Reg} {nn : Byte} {i : Instr} (h : dispatchE x nn = .ok i) :
    encode i = wordOfByte 0xE (regBits x) nn := by
  unfold dispatchE at h
  split_ifs at h with hnn <;> cases h <;> subst nn <;> rfl

theorem encode_of_dispatchF {x : Reg} {nn : Byte} {i : Instr} (h : dispatchF x nn = .ok i) :
    encode i = wordOfByte 0xF (regBits x) nn := by
  unfold dispatchF at h
  split_ifs at h with hnn <;> cases h <;> subst nn <;> rfl

/-! ## A word from its fields, the group and the sub-group named -/

theorem wordOfNibbles_of_fields {w : Word} {g n : BitVec 4} (hg : (fieldsOf w).group = g)
    (hn : (fieldsOf w).n = n) : wordOfNibbles g (fieldsOf w).x (fieldsOf w).y n = w := by
  rw [← hg, ← hn, wordOfNibbles_fieldsOf]

theorem wordOfByte_of_group {w : Word} {g : BitVec 4} (hg : (fieldsOf w).group = g) :
    wordOfByte g (fieldsOf w).x (fieldsOf w).nn = w := by
  rw [← hg, wordOfByte_fieldsOf]

theorem wordOfAddr_of_group {w : Word} {g : BitVec 4} (hg : (fieldsOf w).group = g) :
    wordOfAddr g (fieldsOf w).nnn = w := by
  rw [← hg, wordOfAddr_fieldsOf]

/-! ## The two round trips -/

/-- The decoder drops no bit: along each branch of the dispatch, group 0 to group F, the word is put
together again from its fields, the group and sub-group the branch tested among them (R73). -/
theorem encode_of_decode {w : Word} {i : Instr} (h : decode w = .ok i) : encode i = w := by
  unfold decode dispatch at h
  rcases ite_eq_iff.1 h with ⟨hg, h⟩ | ⟨_, h⟩
  · exact encode_of_dispatch0 h
  rcases ite_eq_iff.1 h with ⟨hg, h⟩ | ⟨_, h⟩
  · cases h; exact wordOfAddr_of_group hg
  rcases ite_eq_iff.1 h with ⟨hg, h⟩ | ⟨_, h⟩
  · cases h; exact wordOfAddr_of_group hg
  rcases ite_eq_iff.1 h with ⟨hg, h⟩ | ⟨_, h⟩
  · cases h; exact wordOfByte_of_group hg
  rcases ite_eq_iff.1 h with ⟨hg, h⟩ | ⟨_, h⟩
  · cases h; exact wordOfByte_of_group hg
  rcases ite_eq_iff.1 h with ⟨hg, h⟩ | ⟨_, h⟩
  · rcases ite_eq_iff.1 h with ⟨hn, h⟩ | ⟨_, h⟩ <;> cases h
    exact wordOfNibbles_of_fields hg hn
  rcases ite_eq_iff.1 h with ⟨hg, h⟩ | ⟨_, h⟩
  · cases h; exact wordOfByte_of_group hg
  rcases ite_eq_iff.1 h with ⟨hg, h⟩ | ⟨_, h⟩
  · cases h; exact wordOfByte_of_group hg
  rcases ite_eq_iff.1 h with ⟨hg, h⟩ | ⟨_, h⟩
  · exact (encode_of_dispatch8 h).trans (wordOfNibbles_of_fields hg rfl)
  rcases ite_eq_iff.1 h with ⟨hg, h⟩ | ⟨_, h⟩
  · rcases ite_eq_iff.1 h with ⟨hn, h⟩ | ⟨_, h⟩ <;> cases h
    exact wordOfNibbles_of_fields hg hn
  rcases ite_eq_iff.1 h with ⟨hg, h⟩ | ⟨_, h⟩
  · cases h; exact wordOfAddr_of_group hg
  rcases ite_eq_iff.1 h with ⟨hg, h⟩ | ⟨_, h⟩
  · cases h; exact wordOfAddr_of_group hg
  rcases ite_eq_iff.1 h with ⟨hg, h⟩ | ⟨_, h⟩
  · cases h; exact wordOfByte_of_group hg
  rcases ite_eq_iff.1 h with ⟨hg, h⟩ | ⟨_, h⟩
  · cases h; exact wordOfNibbles_of_fields hg rfl
  rcases ite_eq_iff.1 h with ⟨hg, h⟩ | ⟨_, h⟩
  · exact (encode_of_dispatchE h).trans (wordOfByte_of_group hg)
  · exact (encode_of_dispatchF h).trans (wordOfByte_of_group (by bv_omega))

/-- Every instruction comes back from its word: the fields of the word are the nibbles, byte or
address it was built from, and the dispatch on them is a computation. -/
theorem decode_encode (i : Instr) : decode (encode i) = .ok i := by
  cases i
  case cls | ret => rfl
  case jp | call | ldIndex | jpV0 => simp [decode, dispatch, encode, fieldsOf_wordOfAddr]
  case seImm | sneImm | ldImm | addImm | rnd =>
    simp [decode, dispatch, encode, fieldsOf_wordOfByte]
  case skp | sknp => simp [decode, dispatch, dispatchE, encode, fieldsOf_wordOfByte]
  case ldFromDt | ldKey | ldDt | ldSt | addIndex | ldFont | bcd | storeRegs | loadRegs =>
    simp [decode, dispatch, dispatchF, encode, fieldsOf_wordOfByte]
  case seReg | sneReg | drw => simp [decode, dispatch, encode, fieldsOf_wordOfNibbles]
  case ldReg | orReg | andReg | xorReg | addReg | sub | shr | subn | shl =>
    simp [decode, dispatch, dispatch8, encode, fieldsOf_wordOfNibbles]

theorem decode_eq_ok_iff (w : Word) (i : Instr) : decode w = .ok i ↔ w = encode i :=
  ⟨fun h => (encode_of_decode h).symm, fun h => h ▸ decode_encode i⟩

end Sys2Proof

namespace Sys2Proof.Machine

/-- The words of an instruction are the one of its encoding (R74). -/
theorem EncodedAs.of_encode {i : Instr} {n : Nat} (h : (encode i).toNat = n) : EncodedAs i n :=
  fun w => by rw [decode_eq_ok_iff, ← h, BitVec.toNat_inj]

end Sys2Proof.Machine
end

section
/-! SUPPORT. Control transfer (spec/41_control_flow.md): jumps, the call and the register skips. -/

namespace Sys2Proof.Machine

/-! ## Jumps -/

/-- `nnn + V[0]` fits in 16 bits, so the sum of R117 never wraps. -/
theorem jpV0Target_toNat (nnn : BitVec 12) (b : Byte) :
    (addrOperand nnn + b.zeroExtend 16).toNat = nnn.toNat + b.toNat := by
  have hnnn := nnn.isLt
  have hb := b.isLt
  rw [BitVec.toNat_add, addrOperand_toNat, BitVec.toNat_setWidth]
  omega

/-- Settles O15: the target is `nnn` widened, and the instruction writes `pc` alone. -/
theorem jpSetsPc : Obligations.JpSetsPc := fun nnn s =>
  ⟨.of_encode (wordOfAddr_toNat 0x1 nnn), _, rfl, addrOperand_toNat nnn, Frame.setPc s _⟩

/-- Settles O16: the sum does not wrap, and the instruction writes `pc` alone. -/
theorem jpV0SetsPc : Obligations.JpV0SetsPc := fun nnn s =>
  ⟨.of_encode (wordOfAddr_toNat 0xB nnn), _, rfl, jpV0Target_toNat nnn (s.getV 0),
    Frame.setPc s _⟩

/-! ## The call -/

/-- A push with room writes entry `sp`, raises `sp` by one and changes nothing else (R26). -/
theorem State.push_of_room {s : State} {k : Fin 16} (w : Word) (hk : s.sp.val = k.val) :
    ∃ t, s.push w = some t ∧ t.stack.get k = w ∧
      (∀ j : Fin 16, j ≠ k → t.stack.get j = s.stack.get j) ∧
      t.sp.val = s.sp.val + 1 ∧ Frame [] [.stack] [] s t := by
  have room : s.sp.val < 16 := by omega
  refine ⟨_, dif_pos room, ?entry, ?others, rfl, ?frame⟩
  case entry => simp [Vector.get_eq_getElem, hk]
  case others =>
    intro j hj
    have hne : s.sp.val ≠ j.val := fun e => hj (Fin.ext (e.symm.trans hk))
    simp [Vector.get_eq_getElem, hne]
  case frame => constructor <;> simp [State.getV]

theorem exec_call_of_push_some {nnn : BitVec 12} {s s' : State} (h : s.push (s.pc + 2) = some s') :
    exec (.call nnn) s = .next (s'.setPc (addrOperand nnn)) := by
  simp only [exec, execCall, h]

theorem exec_call_of_push_none {nnn : BitVec 12} {s : State} (h : s.push (s.pc + 2) = none) :
    exec (.call nnn) s = raiseFault .stackOverflow (s.pc + 2) (encode (.call nnn)) s := by
  simp only [exec, execCall, h]

/-- Settles O17: with room the call is the push, then the jump; on a full stack the push fails, and
the call is the fault, which changes `run` alone. -/
theorem callPushesOrOverflows : Obligations.CallPushesOrOverflows := by
  intro nnn s
  refine ⟨.of_encode (wordOfAddr_toNat 0x2 nnn), fun k hk => ?room, fun hfull => ?full⟩
  case room =>
    obtain ⟨t, hpush, hentry, hothers, hsp, hframe⟩ := State.push_of_room (s.pc + 2) hk
    exact ⟨_, exec_call_of_push_some hpush, hentry, hothers, hsp, addrOperand_toNat nnn,
      hframe.then_setPc _⟩
  case full =>
    rw [exec_call_of_push_none (State.push_eq_none.2 hfull)]
    obtain ⟨t, hnext, hrun, hpc, hframe⟩ :=
      raiseFault_takes .stackOverflow (s.pc + 2) (encode (.call nnn)) s
    exact ⟨t, _, hnext, hrun, rfl, rfl, hpc, hframe⟩

/-! ## Skips -/

/-- An instruction whose meaning is the conditional skip of R97 skips exactly when its condition
holds, and changes `pc` alone. -/
theorem SkipsWhen.of_skipIf {i : Instr} {s : State} {c : Bool} {cond : Prop}
    (hexec : exec i s = .next (s.skipIf c)) (hc : c = true ↔ cond) : SkipsWhen i s cond :=
  ⟨_, hexec, fun h => if_pos (hc.2 h), fun h => if_neg (mt hc.1 h), Frame.setPc s _⟩

theorem beq_iff_toNat_eq {n : Nat} (a b : BitVec n) : (a == b) = true ↔ a.toNat = b.toNat :=
  beq_iff_eq.trans BitVec.toNat_inj.symm

theorem bne_iff_toNat_ne {n : Nat} (a b : BitVec n) : (a != b) = true ↔ a.toNat ≠ b.toNat :=
  bne_iff_ne.trans BitVec.toNat_inj.symm.not

/-- Settles O20: each skip is `skipIf` of its comparison, which is the comparison of the values as
numbers. -/
theorem registerSkips : Obligations.RegisterSkips := fun x y nn _ =>
  ⟨⟨.of_encode (wordOfByte_toNat 0x3 (regBits x) nn), .of_skipIf rfl (beq_iff_toNat_eq _ _)⟩,
    ⟨.of_encode (wordOfByte_toNat 0x4 (regBits x) nn), .of_skipIf rfl (bne_iff_toNat_ne _ _)⟩,
    ⟨.of_encode (wordOfNibbles_toNat 0x5 (regBits x) (regBits y) 0x0),
      .of_skipIf rfl (beq_iff_toNat_eq _ _)⟩,
    ⟨.of_encode (wordOfNibbles_toNat 0x9 (regBits x) (regBits y) 0x0),
      .of_skipIf rfl (bne_iff_toNat_ne _ _)⟩⟩

end Sys2Proof.Machine
end

section
/-! SUPPORT. Register loads and the immediate add (spec/42_alu.md R133 to R135). -/

namespace Sys2Proof.Machine

/-- A write to `V[x]` has the frame of `V[x]` alone. -/
theorem Frame.setV (s : State) (x : Reg) (b : Byte) : Frame [x] [] [] s (s.setV x b) :=
  .of_regs fun _ hr => State.getV_setV_of_ne s b (List.ne_of_not_mem_cons hr)

/-- An instruction whose meaning is one register write and the advance writes that register with the
byte's value, and nothing else. -/
theorem WritesReg.of_setV {i : Instr} {s : State} {x : Reg} {b : Byte} {value : Nat}
    (hexec : exec i s = .next (s.setV x b).advance) (hb : b.toNat = value) :
    WritesReg i s x value := by
  refine ⟨_, hexec, ?value, rfl, (Frame.setV s x b).then_advance⟩
  case value => rw [State.getV_advance, State.getV_setV_same, hb]

/-- Settles O21: both instructions write `V[x]` alone, 6xnn with `nn` and 7xnn with the byte sum,
which is the sum of the values modulo 256. -/
theorem loadAndAddImmediate : Obligations.LoadAndAddImmediate := fun x nn s =>
  ⟨⟨.of_encode (wordOfByte_toNat 0x6 (regBits x) nn), .of_setV rfl rfl⟩,
    ⟨.of_encode (wordOfByte_toNat 0x7 (regBits x) nn),
      .of_setV rfl (BitVec.toNat_add (s.getV x) nn)⟩⟩

/-- Settles O22: the instruction writes `V[x]` alone, with the byte of `V[y]`. -/
theorem ldRegCopies : Obligations.LdRegCopies := fun x y _ =>
  ⟨.of_encode (wordOfNibbles_toNat 0x8 (regBits x) (regBits y) 0x0), .of_setV rfl rfl⟩

end Sys2Proof.Machine
end

section
/-! SUPPORT. The index register (spec/43_index_memory.md R151). -/

namespace Sys2Proof.Machine

/-- A write to `I` has the frame of `I` alone. -/
theorem Frame.setI (s : State) (w : Word) : Frame [] [.index] [] s (s.setI w) := by
  constructor <;> simp

/-- Settles O28: the instruction writes `nnn` widened to `I`, then advances. -/
theorem ldIndexSetsI : Obligations.LdIndexSetsI := fun nnn s =>
  ⟨.of_encode (wordOfAddr_toNat 0xA nnn), _, rfl, addrOperand_toNat nnn, rfl,
    (Frame.setI s _).then_advance⟩

end Sys2Proof.Machine
end

section
/-! SUPPORT. The display (spec/44_display.md R173). -/

namespace Sys2Proof.Machine

/-- A write to the framebuffer has the frame of the screen alone. -/
theorem Frame.setFb (s : State) (f : Framebuffer) : Frame [] [.screen] [] s (s.setFb f) := by
  constructor <;> simp

/-- Settles O37: the instruction writes the blank framebuffer, whose cells are all false, then
advances; no register is written, VF among them. -/
theorem clsBlanksTheScreen : Obligations.ClsBlanksTheScreen := fun s =>
  ⟨.of_encode rfl, _, rfl, Framebuffer.get_blank, rfl,
    (Frame.setFb s Framebuffer.blank).then_advance⟩

end Sys2Proof.Machine
end

section
/-! SUPPORT. Key skips and timer access (spec/45_input_timers.md R190 to R192, R194, R195). -/

namespace Sys2Proof.Machine

/-- The word of an instruction whose one operand is a register: the group and the low byte as one
number, and the register in the second nibble (R74). -/
theorem EncodedAs.of_wordOfByte {i : Instr} {g : BitVec 4} {x : Reg} {nn : Byte} {n : Nat}
    (henc : encode i = wordOfByte g (regBits x) nn) (hn : g.toNat * 4096 + nn.toNat = n) :
    EncodedAs i (n + x.val * 256) := by
  apply EncodedAs.of_encode
  rw [henc, ← hn, wordOfByte_toNat, regBits_toNat]
  exact Nat.add_right_comm _ _ _

/-! ## Key skips -/

/-- The key a register selects is the only one whose index is the low nibble (R190). -/
theorem eq_keyOf {k : KeyIx} {b : Byte} (hk : k.val = b.toNat % 16) : k = keyOf b :=
  Fin.ext (hk.trans (keyOf_val b).symm)

/-- Settles O41: the key named is the one the instruction tests, and each instruction is `skipIf` of
that key's level, taken as it is or negated. -/
theorem keySkips : Obligations.KeySkips := by
  intro x s k hk
  obtain rfl := eq_keyOf hk
  exact ⟨⟨.of_wordOfByte rfl rfl, .of_skipIf rfl Iff.rfl⟩,
    ⟨.of_wordOfByte rfl rfl, .of_skipIf rfl (Bool.not_eq_true' _).to_iff⟩⟩

/-! ## Timer access -/

/-- A write to `DT` has the frame of the delay timer alone. -/
theorem Frame.setDt (s : State) (b : Byte) : Frame [] [.delay] [] s (s.setDt b) := by
  constructor <;> simp

/-- A write to `ST` has the frame of the sound timer alone. -/
theorem Frame.setSt (s : State) (b : Byte) : Frame [] [.sound] [] s (s.setSt b) := by
  constructor <;> simp

/-- The tone is on exactly while `ST` is above 0 (R234). -/
theorem State.soundOn_iff (s : State) : s.soundOn = true ↔ s.st.toNat > 0 := decide_eq_true_iff

/-- Settles O42: each instruction is one write, of `V[x]`, `DT` or `ST`, and the advance. -/
theorem timerInstructionsCopy : Obligations.TimerInstructionsCopy := by
  intro x s
  refine ⟨⟨.of_wordOfByte rfl rfl, .of_setV rfl rfl⟩, ⟨.of_wordOfByte rfl rfl, ?delay⟩,
    ⟨.of_wordOfByte rfl rfl, ?sound⟩⟩
  case delay => exact ⟨_, rfl, rfl, rfl, (Frame.setDt s _).then_advance⟩
  case sound => exact ⟨_, rfl, rfl, rfl, State.soundOn_iff _, (Frame.setSt s _).then_advance⟩

end Sys2Proof.Machine
end

section
/-! SUPPORT. The reset (spec/70_reset_and_hazards.md R250): what memory holds after an image is
loaded, and the parts of the state that are indexed. -/

namespace Sys2Proof.Machine
open Sys2Proof.Config

/-! ## The reset contents of memory -/

/-- The font stands at address 0 (decision D5), so the reset contents are the font as it is listed. -/
theorem initByte_eq_font (a : Nat) : initByte a = Params.font.getD a 0 := if_pos (Nat.zero_le a)

/-- Above the 80 bytes of the font the reset contents are 0. -/
theorem initByte_of_ge {a : Nat} (h : 80 ≤ a) : initByte a = 0 := by
  rw [initByte_eq_font, List.getD_eq_default]
  exact h

/-! ## A loaded image -/

/-- Byte `j` of the image stands at `0x200 + j` (R55). -/
theorem loadedMemory_read_image (rom : Rom) {j : Nat} (h : j < rom.length) :
    (loadedMemory rom).read (0x200 + j) = rom[j] := by
  have hj : j < (List.range' progBase rom.length).length := by rwa [List.length_range']
  have hread := Memory.read_writeAll_getElem [] _ rom List.nodup_range' j hj h
  rwa [List.getElem_range', Nat.one_mul] at hread

/-- Outside the image every byte keeps its reset contents (R52, R55). -/
theorem loadedMemory_read_outside (rom : Rom) {a : Nat}
    (h : a < 0x200 ∨ 0x200 + rom.length ≤ a) : (loadedMemory rom).read a = initByte a := by
  apply Memory.read_writeAll_of_not_mem
  simp only [List.mem_range'_1, progBase]
  omega

/-! ## The reset values of the indexed parts -/

@[simp] theorem State.getV_reset (r : Reg) : State.reset.getV r = 0 :=
  Vector.getElem_replicate r.isLt

@[simp] theorem State.stack_get_reset (k : Fin 16) : State.reset.stack.get k = 0 :=
  Vector.getElem_replicate k.isLt

@[simp] theorem State.getFb_reset (c : CellIx) : State.reset.getFb c = false :=
  Framebuffer.get_blank c

@[simp] theorem State.getKey_reset (k : KeyIx) : State.reset.getKey k = false :=
  Vector.getElem_replicate k.isLt

/-! ## An accepted image -/

/-- An image that fits is accepted: the next state is that of the reset with the image in memory, and
the model's own counters and agenda go on (R250). -/
theorem transact_reset_of_fits {rom : Rom} (h : rom.length ≤ 3584) (s : State) :
    transact (.reset rom) s = .next
      { State.reset with
        mem := loadedMemory rom, draws := s.draws, turns := s.turns, agenda := s.agenda } := by
  obtain ⟨_, heq⟩ | ⟨hlong, _⟩ := State.resetWith_cases rom s
  · exact congrArg Host.Outcome.next heq
  · omega

/-- Settles O49: outside memory and the model's own fields the state is that of the reset; memory is
canonical and holds the image from 0x200 on, and a byte outside the image has its reset contents,
which are the font below 80 and 0 from there on. -/
theorem resetRebuildsEveryField : Obligations.ResetRebuildsEveryField := by
  intro rom s hfits
  refine ⟨_, transact_reset_of_fits hfits s, State.getV_reset, rfl, rfl, rfl,
    State.stack_get_reset, rfl, rfl, State.getFb_reset, State.getKey_reset, rfl, rfl, rfl, rfl, rfl,
    loadedMemory_wf rom hfits, fun _ hj => loadedMemory_read_image rom hj, ?font, ?zero⟩
  case font =>
    intro a ha
    exact (loadedMemory_read_outside rom (by omega)).trans (initByte_eq_font a)
  case zero =>
    intro a ha houtside
    exact (loadedMemory_read_outside rom houtside).trans (initByte_of_ge ha)

end Sys2Proof.Machine
end

section
/-! SUPPORT. The decoder as a whole (spec/30_encoding.md R73, R74, R77): the round trips, the opcode
table, and the words that are no instruction. -/

namespace Sys2Proof

/-- Settles O3, by the round trip of every instruction. -/
theorem decodeOfEncode : Obligations.DecodeOfEncode := decode_encode

/-- Settles O4: along each branch of the dispatch the word is put together again from its fields. -/
theorem encodeOfDecode : Obligations.EncodeOfDecode := fun _ _ => encode_of_decode

/-- Settles O1, by running the decoder on each word. -/
theorem sampleWordsDecode : Obligations.SampleWordsDecode := by
  unfold Obligations.SampleWordsDecode
  decide

/-! ## A word of a row is the word of an instruction -/

section Masks
open Laws.RowMatch

variable {w : Word}

theorem wordOfNibbles_inj {g x y n g' x' y' n' : BitVec 4}
    (h : wordOfNibbles g x y n = wordOfNibbles g' x' y' n') : g = g' ∧ n = n' := by
  have hf := congrArg fieldsOf h
  rw [fieldsOf_wordOfNibbles, fieldsOf_wordOfNibbles, Fields.mk.injEq] at hf
  exact ⟨hf.1, hf.2.2.2.1⟩

theorem wordOfByte_inj {g x g' x' : BitVec 4} {nn nn' : Byte}
    (h : wordOfByte g x nn = wordOfByte g' x' nn') : g = g' ∧ nn = nn' := by
  obtain ⟨hg, -, hnn⟩ := fieldsOf_wordOfByte g x nn
  obtain ⟨hg', -, hnn'⟩ := fieldsOf_wordOfByte g' x' nn'
  exact ⟨by rw [← hg, h, hg'], by rw [← hnn, h, hnn']⟩

/-- A word that agrees with a pattern in the group is of that group. -/
theorem group_of_and {g : BitVec 4} (h : w &&& 0xF000 = wordOfByte g 0 0) :
    (fieldsOf w).group = g := by
  rw [← wordOfByte_fieldsOf w, wordOfByte_and_group] at h
  exact (wordOfByte_inj h).1

/-- A word that agrees with a pattern in the group and the last nibble is built from these two. -/
theorem wordOfNibbles_of_and {g n : BitVec 4} (h : w &&& 0xF00F = wordOfNibbles g 0 0 n) :
    wordOfNibbles g (fieldsOf w).x (fieldsOf w).y n = w := by
  rw [← wordOfNibbles_fieldsOf w, wordOfNibbles_and_ends] at h
  obtain ⟨hg, hn⟩ := wordOfNibbles_inj h
  exact wordOfNibbles_of_fields hg hn

/-- A word that agrees with a pattern in the group and the low byte is built from these two. -/
theorem wordOfByte_of_and {g : BitVec 4} {nn : Byte} (h : w &&& 0xF0FF = wordOfByte g 0 nn) :
    wordOfByte g (fieldsOf w).x nn = w := by
  rw [← wordOfByte_fieldsOf w, wordOfByte_and_low] at h
  obtain ⟨hg, hnn⟩ := wordOfByte_inj h
  rw [← hnn]
  exact wordOfByte_of_group hg

end Masks

/-- A word of a row is the encoding of an instruction of that row, the fields the pattern leaves
free being the operands (R74). -/
def OpcodeRow.Encoded (row : OpcodeRow) : Prop :=
  ∀ w : Word, w &&& row.mask = row.pattern → ∃ i : Instr, encode i = w ∧ i.mnemonic = row.mnemonic

section Rows
variable {m : String} {p : Word} {g : BitVec 4}

theorem OpcodeRow.encoded_of_word {i : Instr} (henc : encode i = p) (hm : i.mnemonic = m) :
    Encoded ⟨m, 0xFFFF, p⟩ := by
  intro w hw
  have hw : w &&& BitVec.allOnes 16 = p := hw
  rw [BitVec.and_allOnes] at hw
  exact ⟨i, henc.trans hw.symm, hm⟩

theorem OpcodeRow.encoded_of_addr (mk : BitVec 12 → Instr) (hp : p = wordOfByte g 0 0)
    (henc : ∀ nnn, encode (mk nnn) = wordOfAddr g nnn) (hm : ∀ nnn, (mk nnn).mnemonic = m) :
    Encoded ⟨m, 0xF000, p⟩ := fun w hw =>
  ⟨mk (fieldsOf w).nnn, (henc _).trans (wordOfAddr_of_group (group_of_and (hw.trans hp))), hm _⟩

theorem OpcodeRow.encoded_of_byte (mk : Reg → Byte → Instr) (hp : p = wordOfByte g 0 0)
    (henc : ∀ x nn, encode (mk x nn) = wordOfByte g (regBits x) nn)
    (hm : ∀ x nn, (mk x nn).mnemonic = m) : Encoded ⟨m, 0xF000, p⟩ := fun w hw =>
  ⟨mk (regOf (fieldsOf w).x) (fieldsOf w).nn,
    (henc _ _).trans (wordOfByte_of_group (group_of_and (hw.trans hp))), hm _ _⟩

theorem OpcodeRow.encoded_of_regs {n : BitVec 4} (mk : Reg → Reg → Instr)
    (hp : p = wordOfNibbles g 0 0 n)
    (henc : ∀ x y, encode (mk x y) = wordOfNibbles g (regBits x) (regBits y) n)
    (hm : ∀ x y, (mk x y).mnemonic = m) : Encoded ⟨m, 0xF00F, p⟩ := fun w hw =>
  ⟨mk (regOf (fieldsOf w).x) (regOf (fieldsOf w).y),
    (henc _ _).trans (wordOfNibbles_of_and (hw.trans hp)), hm _ _⟩

theorem OpcodeRow.encoded_of_sprite (mk : Reg → Reg → BitVec 4 → Instr)
    (hp : p = wordOfByte g 0 0)
    (henc : ∀ x y n, encode (mk x y n) = wordOfNibbles g (regBits x) (regBits y) n)
    (hm : ∀ x y n, (mk x y n).mnemonic = m) : Encoded ⟨m, 0xF000, p⟩ := fun w hw =>
  ⟨mk (regOf (fieldsOf w).x) (regOf (fieldsOf w).y) (fieldsOf w).n,
    (henc _ _ _).trans (wordOfNibbles_of_fields (group_of_and (hw.trans hp)) rfl), hm _ _ _⟩

theorem OpcodeRow.encoded_of_reg {nn : Byte} (mk : Reg → Instr) (hp : p = wordOfByte g 0 nn)
    (henc : ∀ x, encode (mk x) = wordOfByte g (regBits x) nn) (hm : ∀ x, (mk x).mnemonic = m) :
    Encoded ⟨m, 0xF0FF, p⟩ := fun w hw =>
  ⟨mk (regOf (fieldsOf w).x), (henc _).trans (wordOfByte_of_and (hw.trans hp)), hm _⟩

end Rows

/-- Every row of the table is one of encodings (R74); the rows stand in the table's order. -/
theorem OpcodeRow.encoded_of_mem : ∀ row ∈ opcodeTable, row.Encoded := by
  rw [← List.forall_iff_forall_mem, opcodeTable]
  simp only [List.cons_append, List.nil_append, List.forall_cons]
  exact ⟨encoded_of_word (i := .cls) rfl rfl,
    encoded_of_word (i := .ret) rfl rfl,
    encoded_of_addr .jp rfl (fun _ => rfl) (fun _ => rfl),
    encoded_of_addr .call rfl (fun _ => rfl) (fun _ => rfl),
    encoded_of_byte .seImm rfl (fun _ _ => rfl) (fun _ _ => rfl),
    encoded_of_byte .sneImm rfl (fun _ _ => rfl) (fun _ _ => rfl),
    encoded_of_regs .seReg rfl (fun _ _ => rfl) (fun _ _ => rfl),
    encoded_of_byte .ldImm rfl (fun _ _ => rfl) (fun _ _ => rfl),
    encoded_of_byte .addImm rfl (fun _ _ => rfl) (fun _ _ => rfl),
    encoded_of_regs .ldReg rfl (fun _ _ => rfl) (fun _ _ => rfl),
    encoded_of_regs .orReg rfl (fun _ _ => rfl) (fun _ _ => rfl),
    encoded_of_regs .andReg rfl (fun _ _ => rfl) (fun _ _ => rfl),
    encoded_of_regs .xorReg rfl (fun _ _ => rfl) (fun _ _ => rfl),
    encoded_of_regs .addReg rfl (fun _ _ => rfl) (fun _ _ => rfl),
    encoded_of_regs .sub rfl (fun _ _ => rfl) (fun _ _ => rfl),
    encoded_of_regs .shr rfl (fun _ _ => rfl) (fun _ _ => rfl),
    encoded_of_regs .subn rfl (fun _ _ => rfl) (fun _ _ => rfl),
    encoded_of_regs .shl rfl (fun _ _ => rfl) (fun _ _ => rfl),
    encoded_of_regs .sneReg rfl (fun _ _ => rfl) (fun _ _ => rfl),
    encoded_of_addr .ldIndex rfl (fun _ => rfl) (fun _ => rfl),
    encoded_of_addr .jpV0 rfl (fun _ => rfl) (fun _ => rfl),
    encoded_of_byte .rnd rfl (fun _ _ => rfl) (fun _ _ => rfl),
    encoded_of_sprite .drw rfl (fun _ _ _ => rfl) (fun _ _ _ => rfl),
    encoded_of_reg .skp rfl (fun _ => rfl) (fun _ => rfl),
    encoded_of_reg .sknp rfl (fun _ => rfl) (fun _ => rfl),
    encoded_of_reg .ldFromDt rfl (fun _ => rfl) (fun _ => rfl),
    encoded_of_reg .ldKey rfl (fun _ => rfl) (fun _ => rfl),
    encoded_of_reg .ldDt rfl (fun _ => rfl) (fun _ => rfl),
    encoded_of_reg .ldSt rfl (fun _ => rfl) (fun _ => rfl),
    encoded_of_reg .addIndex rfl (fun _ => rfl) (fun _ => rfl),
    encoded_of_reg .ldFont rfl (fun _ => rfl) (fun _ => rfl),
    encoded_of_reg .bcd rfl (fun _ => rfl) (fun _ => rfl),
    encoded_of_reg .storeRegs rfl (fun _ => rfl) (fun _ => rfl),
    encoded_of_reg .loadRegs rfl (fun _ => rfl) (fun _ => rfl),
    trivial⟩

/-- A mnemonic is the name of one row (R79). -/
theorem OpcodeRow.eq_of_mnemonic :
    ∀ r ∈ opcodeTable, ∀ r' ∈ opcodeTable, r.mnemonic = r'.mnemonic → r = r' := by decide

open Laws.RowMatch in
/-- The encoding of an instruction is a word of the row with its mnemonic (R74). -/
theorem encode_matches_row : ∀ i : Instr, Statement i
  | .cls => cls
  | .ret => ret
  | .jp nnn => jp nnn
  | .call nnn => call nnn
  | .seImm x nn => seImm x nn
  | .sneImm x nn => sneImm x nn
  | .seReg x y => seReg x y
  | .ldImm x nn => ldImm x nn
  | .addImm x nn => addImm x nn
  | .ldReg x y => ldReg x y
  | .orReg x y => orReg x y
  | .andReg x y => andReg x y
  | .xorReg x y => xorReg x y
  | .addReg x y => addReg x y
  | .sub x y => sub x y
  | .shr x y => shr x y
  | .subn x y => subn x y
  | .shl x y => shl x y
  | .sneReg x y => sneReg x y
  | .ldIndex nnn => ldIndex nnn
  | .jpV0 nnn => jpV0 nnn
  | .rnd x nn => rnd x nn
  | .drw x y n => drw x y n
  | .skp x => skp x
  | .sknp x => sknp x
  | .ldFromDt x => ldFromDt x
  | .ldKey x => ldKey x
  | .ldDt x => ldDt x
  | .ldSt x => ldSt x
  | .addIndex x => addIndex x
  | .ldFont x => ldFont x
  | .bcd x => bcd x
  | .storeRegs x => storeRegs x
  | .loadRegs x => loadRegs x

/-- Settles O5: a word of a row is an instruction's encoding, which decodes to it, and an encoding is
a word of the row with the instruction's mnemonic, which is one row.  A word of two rows would encode
two instructions of different mnemonics, but decodes to one. -/
theorem decoderAgreesWithOpcodeTable : Obligations.DecoderAgreesWithOpcodeTable := by
  constructor
  · intro w row hrow
    constructor
    · intro hw
      obtain ⟨i, rfl, hi⟩ := OpcodeRow.encoded_of_mem row hrow w hw
      exact ⟨i, decode_encode i, hi⟩
    · rintro ⟨i, hdec, hi⟩
      obtain ⟨r, hr, hri, hcovers⟩ := encode_matches_row i
      obtain rfl := OpcodeRow.eq_of_mnemonic r hr row hrow (hri.trans hi)
      rw [← encode_of_decode hdec]
      exact beq_iff_eq.1 hcovers
  · intro w r r' hr hr' hw hw'
    obtain ⟨i, rfl, hi⟩ := OpcodeRow.encoded_of_mem r hr w hw
    obtain ⟨j, hj, hjr⟩ := OpcodeRow.encoded_of_mem r' hr' _ hw'
    obtain rfl : j = i := Except.ok.inj (by rw [← decode_encode j, ← decode_encode i, hj])
    exact OpcodeRow.eq_of_mnemonic r hr r' hr' (hi.symm.trans hjr)

/-! ## The words that are no instruction -/

theorem dispatch0_eq_error_iff {op : Word} {e : Reject} :
    dispatch0 op = .error e ↔ op ≠ 0x00E0 ∧ op ≠ 0x00EE ∧ e = .group0 := by
  simp only [dispatch0, ite_eq_iff, reduceCtorEq, and_false, false_or, Except.error.injEq,
    ne_eq, eq_comm (a := e)]

theorem dispatch8_eq_error_iff {x y : Reg} {n : BitVec 4} {e : Reject} :
    dispatch8 x y n = .error e ↔ n.toNat ∈ [8, 9, 10, 11, 12, 13, 15] ∧ e = .group8 := by
  have mem_iff : n.toNat ∈ [8, 9, 10, 11, 12, 13, 15] ↔ n ≠ 0x0 ∧ n ≠ 0x1 ∧ n ≠ 0x2 ∧ n ≠ 0x3 ∧
      n ≠ 0x4 ∧ n ≠ 0x5 ∧ n ≠ 0x6 ∧ n ≠ 0x7 ∧ n ≠ 0xE := by
    revert n; decide
  rw [mem_iff]
  simp only [dispatch8, ite_eq_iff, reduceCtorEq, and_false, false_or, Except.error.injEq,
    and_assoc, ne_eq, eq_comm (a := e)]

theorem dispatchE_eq_error_iff {x : Reg} {nn : Byte} {e : Reject} :
    dispatchE x nn = .error e ↔ nn ≠ 0x9E ∧ nn ≠ 0xA1 ∧ e = .groupE := by
  simp only [dispatchE, ite_eq_iff, reduceCtorEq, and_false, false_or, Except.error.injEq,
    ne_eq, eq_comm (a := e)]

theorem dispatchF_eq_error_iff {x : Reg} {nn : Byte} {e : Reject} :
    dispatchF x nn = .error e ↔
      nn.toNat ∉ [0x07, 0x0A, 0x15, 0x18, 0x1E, 0x29, 0x33, 0x55, 0x65] ∧ e = .groupF := by
  have not_mem_iff : nn.toNat ∉ [0x07, 0x0A, 0x15, 0x18, 0x1E, 0x29, 0x33, 0x55, 0x65] ↔
      nn ≠ 0x07 ∧ nn ≠ 0x0A ∧ nn ≠ 0x15 ∧ nn ≠ 0x18 ∧ nn ≠ 0x1E ∧ nn ≠ 0x29 ∧ nn ≠ 0x33 ∧
      nn ≠ 0x55 ∧ nn ≠ 0x65 := by
    simp [BitVec.toNat_eq]
  rw [not_mem_iff]
  simp only [dispatchF, ite_eq_iff, reduceCtorEq, and_false, false_or, Except.error.injEq,
    and_assoc, ne_eq, eq_comm (a := e)]

/-- A rejection comes from one of the six groups that hold words of no instruction (R77). -/
theorem dispatch_eq_error_iff {op : Word} {f : Fields} {e : Reject} :
    dispatch op f = .error e ↔
      (f.group = 0x0 ∧ dispatch0 op = .error e) ∨
      (f.group = 0x5 ∧ f.n ≠ 0x0 ∧ e = .group5) ∨
      (f.group = 0x8 ∧ dispatch8 (regOf f.x) (regOf f.y) f.n = .error e) ∨
      (f.group = 0x9 ∧ f.n ≠ 0x0 ∧ e = .group9) ∨
      (f.group = 0xE ∧ dispatchE (regOf f.x) f.nn = .error e) ∨
      (f.group = 0xF ∧ dispatchF (regOf f.x) f.nn = .error e) := by
  simp only [dispatch, ite_eq_iff, reduceCtorEq, and_false, false_or, Except.error.injEq]
  constructor
  · rintro (h0 | ⟨_, _, _, _, _, ⟨hg, hn, he⟩ | ⟨_, _, _, h8 | ⟨_, ⟨hg, hn, he⟩ | ⟨_, _, _, _, _,
      hE | ⟨_, hF⟩⟩⟩⟩⟩)
    · exact .inl h0
    · exact .inr (.inl ⟨hg, hn, he.symm⟩)
    · exact .inr (.inr (.inl h8))
    · exact .inr (.inr (.inr (.inl ⟨hg, hn, he.symm⟩)))
    · exact .inr (.inr (.inr (.inr (.inl hE))))
    · exact .inr (.inr (.inr (.inr (.inr ⟨by bv_omega, hF⟩))))
  · rintro (⟨hg, h⟩ | ⟨hg, hn, he⟩ | ⟨hg, h⟩ | ⟨hg, hn, he⟩ | ⟨hg, h⟩ | ⟨hg, h⟩) <;>
      simp_all

/-- Settles O6: the groups, sub-groups and low bits that reject a word, read as numbers. -/
theorem invalidWordsByTheirSpace : Obligations.InvalidWordsByTheirSpace := by
  intro w
  have group_iff (g : BitVec 4) : (fieldsOf w).group = g ↔ w.toNat / 4096 = g.toNat := by
    rw [← fieldsOf_group_toNat, BitVec.toNat_inj]
  have n_iff (n : BitVec 4) : (fieldsOf w).n = n ↔ w.toNat % 16 = n.toNat := by
    rw [← fieldsOf_n_toNat, BitVec.toNat_inj]
  have nn_iff (nn : Byte) : (fieldsOf w).nn = nn ↔ w.toNat % 256 = nn.toNat := by
    rw [← fieldsOf_nn_toNat, BitVec.toNat_inj]
  have word_iff (op : Word) : w = op ↔ w.toNat = op.toNat := BitVec.toNat_inj.symm
  have decode_error_iff (e : Reject) := dispatch_eq_error_iff (op := w) (f := fieldsOf w) (e := e)
  simp only [dispatch0_eq_error_iff, dispatch8_eq_error_iff, dispatchE_eq_error_iff,
    dispatchF_eq_error_iff, ne_eq, group_iff, n_iff, nn_iff, word_iff, fieldsOf_n_toNat,
    fieldsOf_nn_toNat] at decode_error_iff
  simp only [decode, ne_eq, decode_error_iff]
  simp

end Sys2Proof
end

section
/-! SUPPORT. Frames of the updates, and of one update after another. -/

namespace Sys2Proof.Machine

/-- What two updates in a row leave unchanged is what both do. -/
theorem Frame.trans {regs regs' : List Reg} {parts parts' : List Part} {bytes bytes' : List Nat}
    {s t u : State} (h : Frame regs parts bytes s t) (h' : Frame regs' parts' bytes' t u) :
    Frame (regs ++ regs') (parts ++ parts') (bytes ++ bytes') s u := by
  have split {α : Type} {a : α} {l l' : List α} (ha : a ∉ l ++ l') : a ∉ l ∧ a ∉ l' := by
    rwa [List.mem_append, not_or] at ha
  exact {
    regs := fun r hr => (h'.regs r (split hr).2).trans (h.regs r (split hr).1)
    index := fun hp => (h'.index (split hp).2).trans (h.index (split hp).1)
    stack := fun hp =>
      have ⟨hsp, hstack⟩ := h.stack (split hp).1
      have ⟨hsp', hstack'⟩ := h'.stack (split hp).2
      ⟨hsp'.trans hsp, hstack'.trans hstack⟩
    delay := fun hp => (h'.delay (split hp).2).trans (h.delay (split hp).1)
    sound := fun hp => (h'.sound (split hp).2).trans (h.sound (split hp).1)
    screen := fun hp => (h'.screen (split hp).2).trans (h.screen (split hp).1)
    keys := fun hp => (h'.keys (split hp).2).trans (h.keys (split hp).1)
    run := fun hp => (h'.run (split hp).2).trans (h.run (split hp).1)
    draws := fun hp => (h'.draws (split hp).2).trans (h.draws (split hp).1)
    mem := fun a ha => (h'.mem a (split ha).2).trans (h.mem a (split ha).1)
    loadError := h'.loadError.trans h.loadError
    turns := h'.turns.trans h.turns
    agenda := h'.agenda.trans h.agenda }

/-- A frame may list more than changes. -/
theorem Frame.mono {regs regs' : List Reg} {parts parts' : List Part} {bytes bytes' : List Nat}
    {s t : State} (h : Frame regs parts bytes s t) (hregs : regs ⊆ regs') (hparts : parts ⊆ parts')
    (hbytes : bytes ⊆ bytes') : Frame regs' parts' bytes' s t where
  regs := fun r hr => h.regs r (mt (@hregs r) hr)
  index := fun hp => h.index (mt (@hparts _) hp)
  stack := fun hp => h.stack (mt (@hparts _) hp)
  delay := fun hp => h.delay (mt (@hparts _) hp)
  sound := fun hp => h.sound (mt (@hparts _) hp)
  screen := fun hp => h.screen (mt (@hparts _) hp)
  keys := fun hp => h.keys (mt (@hparts _) hp)
  run := fun hp => h.run (mt (@hparts _) hp)
  draws := fun hp => h.draws (mt (@hparts _) hp)
  mem := fun a ha => h.mem a (mt (@hbytes a) ha)
  loadError := h.loadError
  turns := h.turns
  agenda := h.agenda

theorem Frame.setRun (s : State) (r : RunState) : Frame [] [.run] [] s (s.setRun r) := by
  constructor <;> simp

theorem Frame.setKeyBit (s : State) (k : KeyIx) (b : Bool) :
    Frame [] [.keys] [] s (s.setKeyBit k b) := by
  constructor <;> simp

theorem Frame.countDraw (s : State) : Frame [] [.draws] [] s s.countDraw := by
  constructor <;> simp

end Sys2Proof.Machine
end

section
/-! SUPPORT. Arithmetic, logic and random (spec/42_alu.md): the instructions that write one register,
and those that write a result and the flag. -/

namespace Sys2Proof.Machine
open Sys2Proof.Config

/-- The word of an instruction whose operands are two registers: the group and the last nibble as one
number, and the registers in the nibbles between (R74). -/
theorem EncodedAs.of_wordOfNibbles {i : Instr} {g n : BitVec 4} {x y : Reg} {m : Nat}
    (henc : encode i = wordOfNibbles g (regBits x) (regBits y) n)
    (hm : g.toNat * 4096 + n.toNat = m) : EncodedAs i (m + x.val * 256 + y.val * 16) := by
  apply EncodedAs.of_encode
  rw [henc, ← hm, wordOfNibbles_toNat, regBits_toNat, regBits_toNat]
  ac_rfl

/-! ## Logic -/

/-- Settles O23: each instruction writes `V[x]` alone, and its byte is taken bit by bit. -/
theorem logicActsBitwise : Obligations.LogicActsBitwise := by
  intro x y s
  refine ⟨⟨.of_wordOfNibbles rfl rfl, ?_⟩,
    ⟨.of_wordOfNibbles rfl rfl, ?_⟩,
    ⟨.of_wordOfNibbles rfl rfl, ?_⟩⟩ <;>
    refine ⟨_, rfl, rfl, (Frame.setV s x _).then_advance, fun k => ?_⟩ <;>
    rw [State.getV_advance, State.getV_setV_same]
  · exact BitVec.getLsbD_or
  · exact BitVec.getLsbD_and
  · exact BitVec.getLsbD_xor

/-! ## Random -/

/-- Settles O27: the instruction writes `V[x]`, the byte drawn with the bits of `nn` kept, and counts
the draw. -/
theorem rndMasksAFreeByte : Obligations.RndMasksAFreeByte := by
  intro x nn s
  have bits (k : Nat) : (((s.setV x (drawByte s.draws &&& nn)).countDraw.advance).getV x).getLsbD k =
      ((drawByte s.draws).getLsbD k && nn.getLsbD k) := by
    rw [State.getV_advance, State.getV_countDraw, State.getV_setV_same, BitVec.getLsbD_and]
  refine ⟨.of_encode (wordOfByte_toNat 0xC (regBits x) nn), _, rfl, rfl,
    ((Frame.setV s x _).trans (Frame.countDraw _)).then_advance, rfl, bits, fun k hk => ?_⟩
  rw [bits, hk, Bool.and_false]

/-! ## A result and a flag -/

/-- The two writes have the frame of the two registers alone. -/
theorem Frame.setVAndFlag (s : State) (o : WriteOrder) (x : Reg) (result flag : Byte) :
    Frame [x, vf] [] [] s (s.setVAndFlag o x result flag) := by
  rw [State.setVAndFlag_eq]
  refine .of_regs fun r hr => ?_
  simp only [List.mem_cons, List.not_mem_nil, or_false, not_or] at hr
  show (s.setVAndFlag o x result flag).getV r = s.getV r
  rw [State.getV_setVAndFlag]
  cases o <;> simp [hr]

/-- What an instruction that writes `result` and then `flag` leaves (8xy4). -/
theorem setVAndFlag_flag_last (s : State) (x : Reg) (result flag : Byte) :
    (x ≠ vf → (s.setVAndFlag .resultThenFlag x result flag).getV x = result) ∧
      (s.setVAndFlag .resultThenFlag x result flag).getV vf = flag := by
  simp only [State.getV_setVAndFlag]
  exact ⟨fun hx => by simp [hx], by simp⟩

/-- What an instruction that writes `flag` and then `result` leaves (8xy5, 8xy6, 8xy7, 8xyE). -/
theorem setVAndFlag_result_last (s : State) (x : Reg) (result flag : Byte) :
    (s.setVAndFlag .flagThenResult x result flag).getV x = result ∧
      (x ≠ vf → (s.setVAndFlag .flagThenResult x result flag).getV vf = flag) := by
  simp only [State.getV_setVAndFlag]
  exact ⟨by simp, fun hx => by simp [hx.symm]⟩

/-- An instruction whose meaning is the flag, then the result, then the advance. -/
theorem exec_result_last {i : Instr} {s : State} {x : Reg} {result flag : Byte} {value bit : Nat}
    (hexec : exec i s = .next (s.setVAndFlag .flagThenResult x result flag).advance)
    (hvalue : result.toNat = value) (hbit : flag.toNat = bit) :
    ∃ t, exec i s = .next t ∧ t.pc = s.pc + 2 ∧ Frame [x, vf] [] [] s t ∧
      (t.getV x).toNat = value ∧ (x ≠ vf → (t.getV vf).toNat = bit) := by
  obtain ⟨hresult, hflag⟩ := setVAndFlag_result_last s x result flag
  exact ⟨_, hexec, by rw [State.setVAndFlag_eq]; rfl, (Frame.setVAndFlag s _ x _ _).then_advance,
    (congrArg BitVec.toNat hresult).trans hvalue,
    fun hx => (congrArg BitVec.toNat (hflag hx)).trans hbit⟩

theorem sub_toNat (p q : Byte) : (p - q).toNat = (p.toNat + 256 - q.toNat) % 256 := by
  have hp := p.isLt
  have hq := q.isLt
  rw [BitVec.toNat_sub]
  omega

theorem shiftRight_one_toNat (p : Byte) : (p >>> 1).toNat = p.toNat / 2 :=
  (BitVec.toNat_ushiftRight p 1).trans (Nat.shiftRight_eq_div_pow _ 1)

theorem shiftLeft_one_toNat (p : Byte) : (p <<< 1).toNat = p.toNat * 2 % 256 := by
  rw [BitVec.toNat_shiftLeft, Nat.shiftLeft_eq]

/-- Settles O24: 8xy4 writes the flag last, 8xy5 and 8xy7 the result. -/
theorem addAndSubtractWithFlag : Obligations.AddAndSubtractWithFlag := by
  intro x y s
  refine ⟨⟨.of_wordOfNibbles rfl rfl, ?add⟩,
    ⟨.of_wordOfNibbles rfl rfl, exec_result_last rfl (sub_toNat _ _) (noBorrowFlag_toNat _ _)⟩,
    ⟨.of_wordOfNibbles rfl rfl, exec_result_last rfl (sub_toNat _ _) (noBorrowFlag_toNat _ _)⟩⟩
  case add =>
    obtain ⟨hresult, hflag⟩ := setVAndFlag_flag_last s x (s.getV x + s.getV y)
      (carryFlag (s.getV x) (s.getV y))
    exact ⟨_, rfl, rfl, (Frame.setVAndFlag s _ x _ _).then_advance,
      fun hx => (congrArg BitVec.toNat (hresult hx)).trans (BitVec.toNat_add _ _),
      (congrArg BitVec.toNat hflag).trans (carryFlag_toNat _ _)⟩

/-- Settles O25: both shifts write the result last, and their meaning does not name `y`. -/
theorem shiftsWithFlag : Obligations.ShiftsWithFlag := fun _ _ _ =>
  ⟨⟨.of_wordOfNibbles rfl rfl, fun _ => rfl,
      exec_result_last rfl (shiftRight_one_toNat _) (lowBitFlag_toNat _)⟩,
    ⟨.of_wordOfNibbles rfl rfl, fun _ => rfl,
      exec_result_last rfl (shiftLeft_one_toNat _) (highBitFlag_toNat _)⟩⟩

/-! ## The policies of R132 -/

/-- With VF as the destination the later of the two writes stands (R11). -/
theorem getV_vf_setVAndFlag (s : State) (o : WriteOrder) (result flag : Byte) :
    (s.setVAndFlag o vf result flag).getV vf =
      match o with
      | .resultThenFlag => flag
      | .flagThenResult => result := by
  rw [State.getV_setVAndFlag]
  cases o <;> simp

/-- With another destination the two writes commute. -/
theorem setVAndFlag_order_irrelevant (s : State) (o o' : WriteOrder) {x : Reg} (hx : x ≠ vf)
    (result flag : Byte) : s.setVAndFlag o x result flag = s.setVAndFlag o' x result flag := by
  have hne : x.val ≠ vf.val := fun e => hx (Fin.ext e)
  have swap : (s.setV x result).setV vf flag = (s.setV vf flag).setV x result :=
    congrArg (fun v => { s with v := v }) (Vector.set_comm result flag hne)
  cases o <;> cases o'
  exacts [rfl, swap, swap.symm, rfl]

/-- Settles O26: with VF as the destination the policy picks the write that stands; with another
destination the order makes no difference. -/
theorem flagDestinationUnderEveryPolicy : Obligations.FlagDestinationUnderEveryPolicy := by
  intro p y s
  refine ⟨⟨_, rfl, ?add⟩, ⟨_, rfl, ?sub⟩, ⟨_, rfl, ?shr⟩, ⟨_, rfl, ?subn⟩, ⟨_, rfl, ?shl⟩,
    fun x q hx => ⟨?_, ?_, ?_, ?_, ?_⟩⟩
  case add =>
    rw [State.getV_advance, getV_vf_setVAndFlag]
    cases p
    exacts [carryFlag_toNat _ _, carryFlag_toNat _ _, BitVec.toNat_add _ _]
  case sub | subn =>
    rw [State.getV_advance, getV_vf_setVAndFlag]
    cases p
    exacts [sub_toNat _ _, noBorrowFlag_toNat _ _, sub_toNat _ _]
  case shr =>
    rw [State.getV_advance, getV_vf_setVAndFlag]
    cases p
    exacts [shiftRight_one_toNat _, lowBitFlag_toNat _, shiftRight_one_toNat _]
  case shl =>
    rw [State.getV_advance, getV_vf_setVAndFlag]
    cases p
    exacts [shiftLeft_one_toNat _, highBitFlag_toNat _, shiftLeft_one_toNat _]
  all_goals
    exact congrArg (fun t => Host.Outcome.next t.advance)
      (setVAndFlag_order_irrelevant s _ _ hx _ _)

/-! ## The index register -/

/-- Settles O29: both instructions write `I` alone, Fx1E with the sum on 16 bits and Fx29 with the
glyph's address. -/
theorem addIndexAndLdFont : Obligations.AddIndexAndLdFont := by
  intro x s
  refine ⟨⟨.of_wordOfByte rfl rfl, _, rfl, ?sum, rfl, (Frame.setI s _).then_advance⟩,
    ⟨.of_wordOfByte rfl rfl, _, rfl, glyphAddr_toNat _, rfl, (Frame.setI s _).then_advance⟩⟩
  case sum =>
    have hb := (s.getV x).isLt
    rw [State.advance_i, State.setI_i, BitVec.toNat_add, BitVec.toNat_setWidth,
      Nat.mod_eq_of_lt (b := 2 ^ 16) (a := (s.getV x).toNat) (by omega)]

end Sys2Proof.Machine
end

section
/-! SUPPORT. The instructions that reach memory (spec/43_index_memory.md R154 to R157): what each does
at the addresses it forms, for either policy, and the fault where an address lies outside memory. -/

namespace Sys2Proof.Machine
open Sys2Proof.Config

/-! ## The addresses formed, byte by byte -/

/-- Inside memory, or with no byte to reach, byte `k` is reached at `addr + k` (R150). -/
theorem dataAddrs_inside_map {addr count : Nat} (h : count = 0 ∨ addr + count ≤ 4096) :
    dataAddrs Params.memOorPolicy addr count = some ((List.range count).map (addr + ·)) := by
  rw [← List.range'_eq_map_range]
  exact (dataAddrs_fault addr count).trans (if_pos h)

/-- Under `wrap` byte `k` is reached at `(addr + k) mod 4096` (R157). -/
theorem dataAddrs_wrap_map (addr count : Nat) :
    dataAddrs .wrap addr count = some ((List.range count).map fun k => (addr + k) % 4096) := by
  rw [dataAddrs_wrap, List.range'_eq_map_range, List.map_map]
  rfl

/-! ## Frames of the writes -/

/-- A group of writes has the frame of its bytes alone. -/
theorem Frame.writeAll (s : State) (as : List Nat) (bs : List Byte) :
    Frame [] [] as s (s.setMem (s.mem.writeAll as bs)) :=
  .of_mem fun _ ha => Memory.read_writeAll_of_not_mem _ _ _ ha

/-- A load of `V[0]` to `V[x]` has the frame of these registers alone. -/
theorem Frame.setVs (s : State) {x : Reg} {bs : List Byte} (hlen : bs.length = x.val + 1) :
    Frame ((List.finRange 16).filter (· ≤ x)) [] [] s (s.setVs 0 bs) := by
  rw [State.setVs_eq]
  refine Frame.of_regs fun r hr => ?_
  have above : ¬ r.val ≤ x.val := by simpa using hr
  have not_loaded : ¬(0 ≤ r.val ∧ r.val < 0 + bs.length) := by omega
  show State.getV _ r = s.getV r
  rw [State.getV_setVs, dif_neg not_loaded]

section Meanings
variable {p : MemOorPolicy} {x : Reg} {s : State} {addr : Nat → Nat}

/-! ## Fx33 -/

theorem bcdDigits_eq (b : Byte) : ∃ h t o : Byte, bcdDigits b = [h, t, o] ∧
    h.toNat = b.toNat / 100 ∧ t.toNat = b.toNat / 10 % 10 ∧ o.toNat = b.toNat % 10 := by
  have hb := b.isLt
  refine ⟨_, _, _, rfl, ?_, ?_, ?_⟩ <;> rw [BitVec.toNat_ofNat] <;> omega

/-- Where its addresses are formed Fx33 puts the digits there and changes nothing else (R154). -/
theorem execBcdUnder_stores (h : dataAddrs p s.i.toNat 3 = some ((List.range 3).map addr)) :
    ∃ t, execBcdUnder p x s = .next t ∧
      (t.mem.read (addr 0)).toNat = (s.getV x).toNat / 100 ∧
      (t.mem.read (addr 1)).toNat = (s.getV x).toNat / 10 % 10 ∧
      (t.mem.read (addr 2)).toNat = (s.getV x).toNat % 10 ∧
      t.pc = s.pc + 2 ∧ Frame [] [] ((List.range 3).map addr) s t := by
  obtain ⟨hundreds, tens, ones, hdigits, hh, ht, ho⟩ := bcdDigits_eq (s.getV x)
  have written := Memory.read_writeAll_getElem s.mem [addr 0, addr 1, addr 2] [hundreds, tens, ones]
    (dataAddrs_nodup h (by decide))
  refine ⟨_, withData_of_some h, ?_, ?_, ?_, rfl, (Frame.writeAll s _ _).then_advance⟩
  · rw [← hh, hdigits]
    exact congrArg BitVec.toNat (written 0 (by simp) (by simp))
  · rw [← ht, hdigits]
    exact congrArg BitVec.toNat (written 1 (by simp) (by simp))
  · rw [← ho, hdigits]
    exact congrArg BitVec.toNat (written 2 (by simp) (by simp))

/-! ## Fx55 -/

/-- Where its addresses are formed Fx55 puts the registers there and changes nothing else (R155). -/
theorem execStoreRegsUnder_stores
    (h : dataAddrs p s.i.toNat (x.val + 1) = some ((List.range (x.val + 1)).map addr)) :
    ∃ t, execStoreRegsUnder p x s = .next t ∧
      (∀ k : Reg, k ≤ x → t.mem.read (addr k.val) = s.getV k) ∧
      t.pc = s.pc + 2 ∧ Frame [] [] ((List.range (x.val + 1)).map addr) s t := by
  refine ⟨_, withData_of_some h, fun k hk => ?_, rfl, (Frame.writeAll s _ _).then_advance⟩
  have hlt : k.val < x.val + 1 := Nat.lt_succ_of_le hk
  have written := Memory.read_writeAll_getElem s.mem _ (regsUpTo s x)
    (dataAddrs_nodup h (by omega)) k.val (by simpa using hlt) (by rwa [regsUpTo_length])
  rwa [List.getElem_map, List.getElem_range, regsUpTo_getElem s x k.val _ k.isLt] at written

/-! ## Fx65 -/

@[simp] theorem State.setVs_pc (s : State) (r : Nat) (bs : List Byte) :
    (s.setVs r bs).pc = s.pc := by
  rw [State.setVs_eq]

@[simp] theorem State.setVs_mem (s : State) (r : Nat) (bs : List Byte) :
    (s.setVs r bs).mem = s.mem := by
  rw [State.setVs_eq]

/-- Where its addresses are formed Fx65 loads the registers from there and changes nothing else
(R156). -/
theorem execLoadRegsUnder_loads
    (h : dataAddrs p s.i.toNat (x.val + 1) = some ((List.range (x.val + 1)).map addr)) :
    ∃ t, execLoadRegsUnder p x s = .next t ∧
      (∀ k : Reg, k ≤ x → t.getV k = s.mem.read (addr k.val)) ∧
      t.pc = s.pc + 2 ∧ Frame ((List.finRange 16).filter (· ≤ x)) [] [] s t := by
  have hlen : (readAll s.mem ((List.range (x.val + 1)).map addr)).length = x.val + 1 := by
    simp [readAll]
  refine ⟨_, withData_of_some h, fun k hk => ?_, by simp, (Frame.setVs s hlen).then_advance⟩
  have hle : k.val ≤ x.val := hk
  have loaded : 0 ≤ k.val ∧ k.val < 0 + (readAll s.mem ((List.range (x.val + 1)).map addr)).length := by
    omega
  rw [State.getV_advance, State.getV_setVs, dif_pos loaded]
  simp [readAll]

end Meanings

/-- Settles O30: the three addresses from `I` on lie inside memory, so the digits are put there. -/
theorem bcdStoresDigits : Obligations.BcdStoresDigits := fun _ _ =>
  ⟨.of_wordOfByte rfl rfl, fun hin =>
    ⟨dataAddrs_inside_map (.inr hin), execBcdUnder_stores (dataAddrs_inside_map (.inr hin))⟩⟩

/-- Settles O31: the addresses from `I` to `I + x` lie inside memory, so the registers are put
there. -/
theorem storeRegsStores : Obligations.StoreRegsStores := fun _ _ =>
  ⟨.of_wordOfByte rfl rfl, fun hin =>
    ⟨dataAddrs_inside_map (.inr hin), execStoreRegsUnder_stores (dataAddrs_inside_map (.inr hin))⟩⟩

/-- Settles O32: the addresses from `I` to `I + x` lie inside memory, so the registers are loaded from
there. -/
theorem loadRegsLoads : Obligations.LoadRegsLoads := fun _ _ =>
  ⟨.of_wordOfByte rfl rfl, fun hin => execLoadRegsUnder_loads (dataAddrs_inside_map (.inr hin))⟩

/-- Settles O34: under `wrap` every address is formed, taken modulo 4096. -/
theorem wrapPolicyReachesAddressesModulo : Obligations.WrapPolicyReachesAddressesModulo :=
  fun _ s => ⟨execBcdUnder_stores (dataAddrs_wrap_map s.i.toNat 3),
    execStoreRegsUnder_stores (dataAddrs_wrap_map s.i.toNat _),
    execLoadRegsUnder_loads (dataAddrs_wrap_map s.i.toNat _)⟩

/-- Settles O35: the load reads the addresses the store wrote. -/
theorem loadRegsReadsBackStoreRegs : Obligations.LoadRegsReadsBackStoreRegs := by
  intro x s hin
  obtain ⟨t, hstore, hstored, -, -⟩ := execStoreRegsUnder_stores (dataAddrs_inside_map (.inr hin))
  refine ⟨t, hstore, fun t' hmem hi => ?_⟩
  have hin' : t'.i.toNat + (x.val + 1) ≤ 4096 := by rw [hi]; exact hin
  obtain ⟨u, hload, hloaded, -, -⟩ := execLoadRegsUnder_loads (dataAddrs_inside_map (.inr hin'))
  refine ⟨u, hload, fun k hk => ?_⟩
  rw [hloaded k hk, hmem, hi, hstored k hk]

/-- Settles O36: the two bytes the next fetch reads are the first two the store wrote. -/
theorem storeIsSeenByTheNextFetch : Obligations.StoreIsSeenByTheNextFetch := by
  intro x s hx hi hin
  obtain ⟨t, hstore, hstored, hpc, -⟩ := execStoreRegsUnder_stores (dataAddrs_inside_map (.inr hin))
  have byte0 : t.mem.read s.i.toNat = s.getV 0 := hstored 0 (Nat.zero_le _)
  have byte1 : t.mem.read (s.i.toNat + 1) = s.getV 1 := hstored 1 hx
  exact ⟨t, hstore, by rw [State.fetchWord_toNat, hpc, ← hi, byte0, byte1]⟩

/-! ## Addresses outside memory -/

/-- An instruction whose last byte lies outside memory takes MEM_OUT_OF_RANGE with the first address
outside, and has no effect (R57). -/
theorem withData_out_of_range {count : Nat} {op info : Word} {s : State} {effect : List Nat → State}
    (hcount : 0 < count) (hout : 4096 < s.i.toNat + count) (hinfo : info.toNat = max s.i.toNat 4096) :
    TakesFault (withData Params.memOorPolicy count op s effect) s .memOutOfRange info op := by
  have none_formed : dataAddrs Params.memOorPolicy s.i.toNat count = none :=
    (dataAddrs_fault _ _).trans (if_neg (by omega))
  have info_eq : outOfRangeInfo s.i = info :=
    BitVec.eq_of_toNat_eq ((outOfRangeInfo_toNat s.i).trans hinfo.symm)
  rw [withData_of_none none_formed, info_eq]
  exact raiseFault_takes _ _ _ _

/-- Settles O33: each of the four forms its addresses first, and none are formed. -/
theorem outOfRangeAccessFaults : Obligations.OutOfRangeAccessFaults := fun _ _ _ _ _ hinfo =>
  ⟨fun hout => withData_out_of_range (by decide) (by omega) hinfo,
    fun hout => ⟨withData_out_of_range (Nat.succ_pos _) (by omega) hinfo,
      withData_out_of_range (Nat.succ_pos _) (by omega) hinfo⟩,
    fun hn hout => withData_out_of_range hn (by omega) hinfo⟩

end Sys2Proof.Machine
end

section
/-! SUPPORT. Dxyn (spec/44_display.md R172, R174, R175): the cells its sprite meets, and what it does to
them, for either policy. -/

namespace Sys2Proof.Machine
open Sys2Proof.Config

/-- Some set bit of a sprite of `rows` rows meets the cell, for an origin `(ox, oy)`, where row `r` is
the byte at `addr r`: what `SpriteMeets` and `SpriteMeetsWrapped` say for the addresses of the two
policies. -/
def MeetsAt (s : State) (addr : Nat → Nat) (ox oy rows : Nat) (c : CellIx) : Prop :=
  ∃ r k, r < rows ∧ k < 8 ∧ (s.mem.read (addr r)).getLsbD (7 - k) = true ∧
    c.val = (oy + r) % 32 * 64 + (ox + k) % 64

/-- From `s` to `t` the cells that `meets` holds of are flipped, VF says whether one of them was on,
and nothing else changes. -/
structure DrawsCells (s : State) (meets : CellIx → Prop) (t : State) : Prop where
  pc : t.pc = s.pc + 2
  frame : Frame [vf] [.screen] [] s t
  met : ∀ c, meets c → t.getFb c = !(s.getFb c)
  unmet : ∀ c, ¬meets c → t.getFb c = s.getFb c
  collided : (∃ c, meets c ∧ s.getFb c = true) → t.getV vf = 1
  clear : ¬(∃ c, meets c ∧ s.getFb c = true) → t.getV vf = 0

/-- The cells the compositor flips are those a set bit meets. -/
theorem mem_spriteCells_iff_meetsAt (s : State) (addr : Nat → Nat) (ox oy : Byte) (rows : Nat)
    (c : CellIx) : c ∈ spriteCells ox oy 0 (readAll s.mem ((List.range rows).map addr)) ↔
      MeetsAt s addr ox.toNat oy.toNat rows c := by
  have cell_iff (r k : Nat) : c = spriteCell ox oy (0 + r) k ↔
      c.val = (oy.toNat + r) % 32 * 64 + (ox.toNat + k) % 64 := by
    rw [Nat.zero_add, Fin.ext_iff]; rfl
  rw [mem_spriteCells]
  constructor
  · rintro ⟨r, k, hr, hk, hbit, hc⟩
    refine ⟨r, k, by simpa [readAll] using hr, hk, ?_, (cell_iff r k).1 hc⟩
    simpa [readAll, spriteBit] using hbit
  · rintro ⟨r, k, hr, hk, hbit, hc⟩
    refine ⟨r, k, by simpa [readAll] using hr, hk, ?_, (cell_iff r k).2 hc⟩
    simpa [readAll, spriteBit] using hbit

/-- Where its addresses are formed Dxyn flips the cells the sprite there meets (R172, R175). -/
theorem execDrwUnder_draws {p : MemOorPolicy} {x y : Reg} {n : BitVec 4} {s : State}
    {addr : Nat → Nat}
    (h : dataAddrs p s.i.toNat n.toNat = some ((List.range n.toNat).map addr)) :
    ∃ t, execDrwUnder p x y n s = .next t ∧
      DrawsCells s (MeetsAt s addr (s.getV x).toNat (s.getV y).toNat n.toNat) t := by
  have few : (readAll s.mem ((List.range n.toNat).map addr)).length ≤ 32 := by
    have := n.isLt
    simp [readAll]; omega
  have meets := mem_spriteCells_iff_meetsAt s addr (s.getV x) (s.getV y) n.toNat
  obtain ⟨hcells, hflag⟩ := draw_spec s.fb (s.getV x) (s.getV y) _ few
  refine ⟨_, withData_of_some h, rfl,
    ((Frame.setFb s _).trans (Frame.setV _ vf _)).then_advance, ?met, ?unmet, ?collided, ?clear⟩
  case met => exact fun c hc => (hcells c).trans (if_pos ((meets c).2 hc))
  case unmet => exact fun c hc => (hcells c).trans (if_neg (mt (meets c).1 hc))
  case collided =>
    rintro ⟨c, hc, hon⟩
    rw [State.getV_advance, State.getV_setV_same, hflag]
    exact congrArg flagByte (List.any_eq_true.2 ⟨c, (meets c).2 hc, hon⟩)
  case clear =>
    intro hoff
    rw [State.getV_advance, State.getV_setV_same, hflag]
    exact congrArg flagByte (List.any_eq_false.2 fun c hc hon => hoff ⟨c, (meets c).1 hc, hon⟩)

/-- Settles O38: with its rows inside memory, or none, the addresses are formed from `I` on. -/
theorem drwFlipsTheSpritesCells : Obligations.DrwFlipsTheSpritesCells := by
  intro x y n s
  refine ⟨.of_encode (wordOfNibbles_toNat 0xD (regBits x) (regBits y) n), fun hin => ?_⟩
  obtain ⟨t, hexec, hdraws⟩ := execDrwUnder_draws (x := x) (y := y) (dataAddrs_inside_map hin)
  exact ⟨t, hexec, hdraws.pc, hdraws.frame, hdraws.met, hdraws.unmet, hdraws.collided,
    hdraws.clear⟩

/-- Settles O40: under `wrap` every address is formed, taken modulo 4096. -/
theorem wrapPolicyDrawsRowsModulo : Obligations.WrapPolicyDrawsRowsModulo := by
  intro x y n s
  obtain ⟨t, hexec, hdraws⟩ :=
    execDrwUnder_draws (x := x) (y := y) (dataAddrs_wrap_map s.i.toNat n.toNat)
  exact ⟨t, hexec, hdraws.pc, hdraws.frame, hdraws.met, hdraws.unmet, hdraws.collided,
    hdraws.clear⟩

/-! ## Drawing twice -/

/-- A draw writes no memory, so the same sprite is there for the next one. -/
theorem DrawsCells.meetsAt_eq {s t : State} {meets : CellIx → Prop} (h : DrawsCells s meets t) :
    MeetsAt t = MeetsAt s := by
  funext addr ox oy rows c
  simp only [MeetsAt, h.frame.mem _ List.not_mem_nil]

/-- Flipping the same cells again gives back the screen. -/
theorem DrawsCells.screen_restored {s t u : State} {meets : CellIx → Prop}
    (h : DrawsCells s meets t) (h' : DrawsCells t meets u) : u.fb = s.fb := by
  refine Framebuffer.ext_get fun c => ?_
  show u.getFb c = s.getFb c
  by_cases hc : meets c
  · rw [h'.met c hc, h.met c hc, Bool.not_not]
  · rw [h'.unmet c hc, h.unmet c hc]

theorem exists_getLsbD_of_ne_zero {b : Byte} (h : b ≠ 0) : ∃ k < 8, b.getLsbD k = true := by
  by_contra hnone
  refine h (BitVec.eq_of_getLsbD_eq fun k hk => ?_)
  have unset : b.getLsbD k = false := Bool.eq_false_iff.2 fun hbit => hnone ⟨k, hk, hbit⟩
  exact unset.trans BitVec.getLsbD_zero.symm

/-- A sprite meets some cell exactly when one of its rows is not zero. -/
theorem exists_meetsAt_iff {s : State} {addr : Nat → Nat} {ox oy rows : Nat} :
    (∃ c, MeetsAt s addr ox oy rows c) ↔ ∃ r, r < rows ∧ s.mem.read (addr r) ≠ 0 := by
  constructor
  · rintro ⟨-, r, k, hr, -, hbit, -⟩
    refine ⟨r, hr, fun hzero => ?_⟩
    rw [hzero] at hbit
    exact Bool.false_ne_true (BitVec.getLsbD_zero.symm.trans hbit)
  · rintro ⟨r, hr, hne⟩
    obtain ⟨k, hk, hbit⟩ := exists_getLsbD_of_ne_zero hne
    refine ⟨⟨(oy + r) % 32 * 64 + (ox + (7 - k)) % 64, by omega⟩, r, 7 - k, hr, by omega, ?_, rfl⟩
    rwa [show 7 - (7 - k) = k by omega]

/-- Settles O39: the second draw flips the same cells, which are all on after the first on a blank
screen. -/
theorem drawingTwiceRestoresTheScreen : Obligations.DrawingTwiceRestoresTheScreen := by
  intro x y n s hx hy hin
  obtain ⟨t, hfirst, hdraws⟩ :=
    execDrwUnder_draws (x := x) (y := y) (dataAddrs_inside_map (.inr hin))
  have hi : t.i = s.i := hdraws.frame.index (by decide)
  have hVx : t.getV x = s.getV x := hdraws.frame.regs x (mt List.mem_singleton.1 hx)
  have hVy : t.getV y = s.getV y := hdraws.frame.regs y (mt List.mem_singleton.1 hy)
  obtain ⟨u, hsecond, hredraws⟩ := execDrwUnder_draws (x := x) (y := y) (s := t) (n := n)
    (dataAddrs_inside_map (.inr (by rw [hi]; exact hin)))
  rw [hdraws.meetsAt_eq, hi, hVx, hVy] at hredraws
  refine ⟨t, u, hfirst, hsecond, hdraws.screen_restored hredraws, fun hblank => ⟨?_, ?_, ?_⟩⟩
  · refine hdraws.clear ?_
    rintro ⟨c, -, hon⟩
    rw [hblank c] at hon
    cases hon
  · intro hrow
    obtain ⟨c, hc⟩ := exists_meetsAt_iff.2 hrow
    exact hredraws.collided ⟨c, hc, by rw [hdraws.met c hc, hblank c]; rfl⟩
  · intro hzero
    refine hredraws.clear ?_
    rintro ⟨c, hc, -⟩
    obtain ⟨r, hr, hne⟩ := exists_meetsAt_iff.1 ⟨c, hc⟩
    exact hne (hzero r hr)

end Sys2Proof.Machine
end

section
/-! SUPPORT. The return (spec/41_control_flow.md R110) and the call it undoes. -/

namespace Sys2Proof.Machine

/-- A pop of a stack that holds an entry answers the top one, lowers `sp` by one and changes nothing
else (R26). -/
theorem State.pop_of_entry {s : State} {k : Fin 16} (hk : s.sp.val = k.val + 1) :
    ∃ t, s.pop = some (s.stack.get k, t) ∧ t.sp.val = k.val ∧ t.stack = s.stack ∧
      Frame [] [.stack] [] s t := by
  have entry : 0 < s.sp.val := by omega
  refine ⟨_, (dif_pos entry).trans (congrArg (fun w => some (w, _)) ?top), ?depth, rfl, ?frame⟩
  case top => simp [Vector.get_eq_getElem, hk]
  case depth => show s.sp.val - 1 = k.val; omega
  case frame => constructor <;> simp [State.getV]

theorem exec_ret_of_pop_some {s s' : State} {target : Word} (h : s.pop = some (target, s')) :
    exec .ret s = .next (s'.setPc target) := by
  simp only [exec, execRet, h]

theorem exec_ret_of_pop_none {s : State} (h : s.pop = none) :
    exec .ret s = raiseFault .stackUnderflow 0 (encode .ret) s := by
  simp only [exec, execRet, h]

/-- Settles O18: with an entry the return is the pop, then the jump to the entry; on an empty stack the
pop fails, and the return is the fault, which changes `run` alone. -/
theorem retPopsOrUnderflows : Obligations.RetPopsOrUnderflows := by
  intro s
  refine ⟨.of_encode rfl, fun k hk => ?entry, fun hempty => ?empty⟩
  case entry =>
    obtain ⟨t, hpop, hsp, hstack, hframe⟩ := State.pop_of_entry hk
    exact ⟨_, exec_ret_of_pop_some hpop, rfl, hsp, hstack, hframe.then_setPc _⟩
  case empty =>
    rw [exec_ret_of_pop_none (State.pop_eq_none.2 hempty)]
    obtain ⟨t, hnext, hrun, hpc, hframe⟩ := raiseFault_takes .stackUnderflow 0 (encode .ret) s
    exact ⟨t, _, hnext, hrun, rfl, rfl, hpc, hframe⟩

/-- Settles O19: the entry the call pushed is the one the return takes off. -/
theorem retUndoesCall : Obligations.RetUndoesCall := by
  intro nnn s hroom
  obtain ⟨-, call, -⟩ := callPushesOrOverflows nnn s
  obtain ⟨t, hcall, hentry, hothers, hsp, -, hframe⟩ := call ⟨s.sp.val, hroom⟩ rfl
  obtain ⟨-, ret, -⟩ := retPopsOrUnderflows t
  obtain ⟨u, hret, hpc, husp, hstack, huframe⟩ := ret ⟨s.sp.val, hroom⟩ hsp
  refine ⟨t, u, hcall, hret, hpc.trans hentry, Fin.ext husp, fun k hk => ?below,
    (hframe.trans huframe).mono (by simp) (by simp) (by simp)⟩
  case below =>
    rw [hstack]
    exact hothers k fun e => by subst e; exact Nat.lt_irrefl _ hk

end Sys2Proof.Machine
end

section
/-! SUPPORT. The wait for a key and the agents beside the engine (spec/45_input_timers.md R193, R196,
spec/60_exceptions.md sections 4 and 5, spec/70_reset_and_hazards.md R253). -/

namespace Sys2Proof.Machine
open Sys2Proof.Config

/-! ## The wait for a key -/

/-- Settles O43: the instruction writes `run` alone, and does not advance. -/
theorem ldKeyWaits : Obligations.LdKeyWaits := fun _ s =>
  ⟨.of_wordOfByte rfl rfl, _, rfl, rfl, rfl, Frame.setRun s _⟩

/-- Settles O44: of the two cases of a key event this is the one that ends the wait. -/
theorem keyPressEndsTheWait : Obligations.KeyPressEndsTheWait := by
  intro s r k hwait hup
  obtain ⟨r', hwait', -, -, hpress⟩ | ⟨hheld, -⟩ := State.pressKey_cases s k true
  · obtain rfl : r' = r := RunState.waitKey.inj (hwait'.symm.trans hwait)
    have index_toNat : (BitVec.ofNat 8 k.val).toNat = k.val := by
      rw [BitVec.toNat_ofNat]; omega
    refine ⟨_, congrArg Host.Outcome.next hpress, ?_, rfl, rfl,
      fun j => State.getKey_setKeyBit s k j true,
      (((Frame.setKeyBit s k true).trans (Frame.setV _ r' _)).then_setPc _).trans
        (Frame.setRun _ _)⟩
    rw [State.getV_setRun, State.getV_setPc, State.getV_setV_same, index_toNat]
  · obtain hfalse | hdown := hheld r hwait
    · cases hfalse
    · exact absurd (hdown.symm.trans hup) (by decide)

/-- Settles O45: of the two cases of a key event this is the one that sets the latch alone. -/
theorem otherKeyEventsOnlySetTheLatch : Obligations.OtherKeyEventsOnlySetTheLatch := by
  intro s k pressed hother
  obtain ⟨r, hwait, hpressed, hup, -⟩ | ⟨-, hlatch⟩ := State.pressKey_cases s k pressed
  · obtain hrelease | hdown | hrunning := hother
    · exact absurd (hpressed.symm.trans hrelease) (by decide)
    · exact absurd (hdown.symm.trans hup) (by decide)
    · exact absurd hwait (hrunning r)
  · exact ⟨_, congrArg Host.Outcome.next hlatch, fun j => State.getKey_setKeyBit s k j pressed, rfl,
      Frame.setKeyBit s k pressed⟩

/-! ## The timers and the host's reads -/

/-- Settles O46: each timer is counted down once, and nothing else is written. -/
theorem tickCountsDown : Obligations.TickCountsDown := fun s =>
  ⟨_, rfl, countDown_toNat s.dt, countDown_toNat s.st, rfl,
    (Frame.setDt s _).trans (Frame.setSt _ _)⟩

/-- Settles O48: the reads are of the fields as they stand. -/
theorem hostReadsChangeNothing : Obligations.HostReadsChangeNothing := fun s =>
  ⟨rfl, rfl, fun _ => rfl, State.soundOn_iff s⟩

/-! ## The reset -/

/-- Settles O50: of the two cases of a reset this is the one that reports. -/
theorem oversizeImageIsRefused : Obligations.OversizeImageIsRefused := by
  intro rom s hlong
  obtain ⟨hfits, -⟩ | ⟨-, hrefused⟩ := State.resetWith_cases rom s
  · omega
  · exact ⟨_, congrArg Host.Outcome.next hrefused, rfl, rfl⟩

/-- Settles O51: memory lists nothing, so it reads as its reset contents, which are the font below 80
and 0 from there on. -/
theorem resetStateValues : Obligations.ResetStateValues :=
  ⟨State.getV_reset, rfl, rfl, rfl, State.stack_get_reset, rfl, rfl, State.getFb_reset,
    State.getKey_reset, rfl, fun a _ => initByte_eq_font a, fun _ ha => initByte_of_ge ha⟩

end Sys2Proof.Machine
end

section
/-! SUPPORT. What an instruction can do, said once: it takes one of the faults of R210 open to it, or it
completes and writes no more than the parts named for it. -/

namespace Sys2Proof
open Machine

/-! ## What an instruction may write -/

/-- The general registers an instruction may write (R21, R133 to R144, R156, R172, R192). -/
def Instr.writtenRegs : Instr → List Reg
  | .ldImm x _ | .addImm x _ | .ldReg x _ | .orReg x _ | .andReg x _ | .xorReg x _ | .rnd x _
  | .ldFromDt x => [x]
  | .addReg x _ | .sub x _ | .shr x _ | .subn x _ | .shl x _ => [x, vf]
  | .drw _ _ _ => [vf]
  | .loadRegs x => (List.finRange 16).filter (· ≤ x)
  | .cls | .ret | .jp _ | .call _ | .jpV0 _ | .seImm _ _ | .sneImm _ _ | .seReg _ _ | .sneReg _ _
  | .ldIndex _ | .skp _ | .sknp _ | .ldKey _ | .ldDt _ | .ldSt _ | .addIndex _ | .ldFont _ | .bcd _
  | .storeRegs _ => []

/-- The parts beside registers, `pc` and memory that an instruction may write (R31). -/
def Instr.writtenParts : Instr → List Part
  | .ldIndex _ | .addIndex _ | .ldFont _ => [.index]
  | .call _ | .ret => [.stack]
  | .ldDt _ => [.delay]
  | .ldSt _ => [.sound]
  | .cls | .drw _ _ _ => [.screen]
  | .ldKey _ => [.run]
  | .rnd _ _ => [.draws]
  | .jp _ | .jpV0 _ | .seImm _ _ | .sneImm _ _ | .seReg _ _ | .sneReg _ _ | .skp _ | .sknp _
  | .ldImm _ _ | .addImm _ _ | .ldReg _ _ | .orReg _ _ | .andReg _ _ | .xorReg _ _ | .addReg _ _
  | .sub _ _ | .shr _ _ | .subn _ _ | .shl _ _ | .ldFromDt _ | .bcd _ | .storeRegs _
  | .loadRegs _ => []

/-- The bytes an instruction may write (R51). -/
def Instr.writtenBytes (s : State) : Instr → List Nat
  | .bcd _ => (List.range 3).map (s.i.toNat + ·)
  | .storeRegs x => (List.range (x.val + 1)).map (s.i.toNat + ·)
  | _ => []

end Sys2Proof

namespace Sys2Proof.Machine
open Sys2Proof.Config

/-- The faults an instruction can take, and the state of the machine in which it does (R210). -/
inductive CanRaise (s : State) : Instr → FaultCause → Prop
  | full (nnn : BitVec 12) : s.sp.val = 16 → CanRaise s (.call nnn) .stackOverflow
  | empty : s.sp.val = 0 → CanRaise s .ret .stackUnderflow
  | sprite (x y : Reg) (n : BitVec 4) : 0 < n.toNat → 4096 ≤ s.i.toNat + n.toNat - 1 →
      CanRaise s (.drw x y n) .memOutOfRange
  | digits (x : Reg) : 4096 ≤ s.i.toNat + 2 → CanRaise s (.bcd x) .memOutOfRange
  | store (x : Reg) : 4096 ≤ s.i.toNat + x.val → CanRaise s (.storeRegs x) .memOutOfRange
  | load (x : Reg) : 4096 ≤ s.i.toNat + x.val → CanRaise s (.loadRegs x) .memOutOfRange

/-- From `s` to `t` the instruction takes a fault: `run` holds the record and nothing else changes. -/
def Raises (i : Instr) (s t : State) : Prop :=
  ∃ cause info, CanRaise s i cause ∧ t = s.setRun (.faulted ⟨cause, info, s.pc, encode i⟩)

/-- From `s` to `t` the instruction completes. -/
structure Completes (i : Instr) (s t : State) : Prop where
  frame : Frame i.writtenRegs i.writtenParts (i.writtenBytes s) s t
  memory : s.mem.wf = true → t.mem.wf = true
  /-- a live entry was live before, or is the address of the next instruction -/
  entries : ∀ k : Fin 16, k.val < t.sp.val →
    (k.val < s.sp.val ∧ t.stack.get k = s.stack.get k) ∨ t.stack.get k = s.pc + 2
  /-- `pc` is bounded by what the instruction computes from, or was a live entry -/
  pc : pcOk s.pc = true →
    t.pc.toNat ≤ 0x10FE ∨ ∃ k : Fin 16, k.val < s.sp.val ∧ t.pc = s.stack.get k
  run : t.run = s.run ∨ ∃ x, t.run = .waitKey x ∧ t.pc = s.pc

/-! ## How an instruction completes -/

theorem pcOk_advance_le {pc : Word} (h : pcOk pc = true) : (pc + 2).toNat ≤ 0x10FE := by
  have := ((pcOk_iff pc).1 h).2.2
  rw [pcOk_add_two h]
  omega

theorem pcOk_skip_le {pc : Word} {c : Bool} (h : pcOk pc = true) :
    (if c then pc + 4 else pc + 2).toNat ≤ 0x10FE := by
  have := ((pcOk_iff pc).1 h).2.2
  split
  · rw [BitVec.toNat_add]; simp; omega
  · exact pcOk_advance_le h

/-- An instruction that leaves the stack and `run` alone, and memory in its form, completes where `pc`
stays in bounds. -/
theorem Completes.of_frame {i : Instr} {s t : State}
    (hframe : Frame i.writtenRegs i.writtenParts (i.writtenBytes s) s t)
    (hmem : s.mem.wf = true → t.mem.wf = true) (hpc : pcOk s.pc = true → t.pc.toNat ≤ 0x10FE)
    (hstack : Part.stack ∉ i.writtenParts := by simp [Instr.writtenParts])
    (hrun : Part.run ∉ i.writtenParts := by simp [Instr.writtenParts]) : Completes i s t where
  frame := hframe
  memory := hmem
  entries := fun k hk => by
    obtain ⟨hsp, hentries⟩ := hframe.stack hstack
    exact .inl ⟨hsp ▸ hk, by rw [hentries]⟩
  pc := fun hok => .inl (hpc hok)
  run := .inl (hframe.run hrun)

/-- An instruction that writes and then goes on to the next. -/
theorem Completes.of_advance {i : Instr} {s u : State}
    (hframe : Frame i.writtenRegs i.writtenParts (i.writtenBytes s) s u)
    (hmem : s.mem.wf = true → u.mem.wf = true) (hpc : u.pc = s.pc)
    (hstack : Part.stack ∉ i.writtenParts := by simp [Instr.writtenParts])
    (hrun : Part.run ∉ i.writtenParts := by simp [Instr.writtenParts]) : Completes i s u.advance :=
  .of_frame hframe.then_advance hmem
    (fun hok => by rw [State.advance_pc, hpc]; exact pcOk_advance_le hok) hstack hrun

/-- An instruction that writes `pc` alone. -/
theorem Completes.of_setPc {i : Instr} {s : State} {w : Word}
    (hpc : pcOk s.pc = true → w.toNat ≤ 0x10FE)
    (hstack : Part.stack ∉ i.writtenParts := by simp [Instr.writtenParts])
    (hrun : Part.run ∉ i.writtenParts := by simp [Instr.writtenParts]) : Completes i s (s.setPc w) :=
  .of_frame ((Frame.setPc s w).mono (List.nil_subset _) (List.nil_subset _) (List.nil_subset _)) id
    hpc hstack hrun

theorem addrOperand_le (nnn : BitVec 12) : (addrOperand nnn).toNat ≤ 0x10FE := by
  have := nnn.isLt
  rw [addrOperand_toNat]
  omega

theorem jpV0Target_le (nnn : BitVec 12) (b : Byte) :
    (addrOperand nnn + b.zeroExtend 16).toNat ≤ 0x10FE := by
  have := nnn.isLt
  have := b.isLt
  rw [jpV0Target_toNat]
  omega

/-! ## The three instructions that can fault -/

theorem call_raises_or_completes (nnn : BitVec 12) (s : State) :
    ∃ t, exec (.call nnn) s = .next t ∧ (Raises (.call nnn) s t ∨ Completes (.call nnn) s t) := by
  by_cases hroom : s.sp.val < 16
  · obtain ⟨t, hpush, hentry, hothers, hsp, hframe⟩ :=
      State.push_of_room (k := ⟨s.sp.val, hroom⟩) (s.pc + 2) rfl
    obtain ⟨_, ht⟩ := State.push_eq_some hpush
    refine ⟨_, exec_call_of_push_some hpush, .inr ⟨hframe.then_setPc _, ?memory, ?entries,
      fun _ => .inl (addrOperand_le nnn), .inl (hframe.run (by decide))⟩⟩
    case memory => rw [ht]; exact id
    case entries =>
      intro k hk
      by_cases htop : k = ⟨s.sp.val, hroom⟩
      · exact .inr (htop ▸ hentry)
      · have hne : k.val ≠ s.sp.val := fun e => htop (Fin.ext e)
        have hlt : k.val < s.sp.val + 1 := hsp ▸ hk
        exact .inl ⟨by omega, hothers k htop⟩
  · have hfull : s.sp.val = 16 := by omega
    exact ⟨_, exec_call_of_push_none (State.push_eq_none.2 hfull), .inl ⟨_, _, .full nnn hfull, rfl⟩⟩

theorem ret_raises_or_completes (s : State) :
    ∃ t, exec .ret s = .next t ∧ (Raises .ret s t ∨ Completes .ret s t) := by
  by_cases hempty : s.sp.val = 0
  · exact ⟨_, exec_ret_of_pop_none (State.pop_eq_none.2 hempty), .inl ⟨_, _, .empty hempty, rfl⟩⟩
  · obtain ⟨k, hk⟩ : ∃ k : Fin 16, s.sp.val = k.val + 1 := ⟨⟨s.sp.val - 1, by omega⟩, by simp; omega⟩
    obtain ⟨t, hpop, hsp, hstack, hframe⟩ := State.pop_of_entry hk
    obtain ⟨_, _, ht⟩ := State.pop_eq_some hpop
    refine ⟨_, exec_ret_of_pop_some hpop, .inr ⟨hframe.then_setPc _, ?memory, ?entries,
      fun _ => .inr ⟨k, by omega, rfl⟩, .inl (hframe.run (by decide))⟩⟩
    case memory => rw [ht]; exact id
    case entries =>
      intro j hj
      have hlt : j.val < k.val := hsp ▸ hj
      exact .inl ⟨by omega, congrArg (fun v => v.get j) hstack⟩

/-- An instruction that reaches memory takes MEM_OUT_OF_RANGE, or forms its addresses from `I` on,
all inside memory. -/
theorem withData_raises_or_completes {i : Instr} {s : State} {count : Nat}
    {effect : List Nat → State}
    (hexec : exec i s = withData Params.memOorPolicy count (encode i) s effect)
    (hout : count ≠ 0 → 4096 < s.i.toNat + count → CanRaise s i .memOutOfRange)
    (hin : (∀ a ∈ (List.range count).map (s.i.toNat + ·), a < memSize) →
      Completes i s (effect ((List.range count).map (s.i.toNat + ·))).advance) :
    ∃ t, exec i s = .next t ∧ (Raises i s t ∨ Completes i s t) := by
  rw [hexec]
  by_cases h : count = 0 ∨ s.i.toNat + count ≤ 4096
  · have formed := dataAddrs_inside_map h
    exact ⟨_, withData_of_some formed, .inr (hin (dataAddrs_lt formed))⟩
  · rw [not_or, Nat.not_le] at h
    obtain ⟨hcount, hfar⟩ := h
    have none_formed : dataAddrs Params.memOorPolicy s.i.toNat count = none :=
      (dataAddrs_fault _ _).trans (if_neg (by omega))
    exact ⟨_, withData_of_none none_formed, .inl ⟨_, _, hout hcount hfar, rfl⟩⟩

/-! ## Every instruction -/

/-- An instruction answers a next state: it takes a fault open to it, or it completes. -/
theorem exec_raises_or_completes (i : Instr) (s : State) :
    ∃ t, exec i s = .next t ∧ (Raises i s t ∨ Completes i s t) := by
  cases i
  case cls => exact ⟨_, rfl, .inr (.of_advance (Frame.setFb s _) id rfl)⟩
  case ret => exact ret_raises_or_completes s
  case call => exact call_raises_or_completes _ s
  case jp => exact ⟨_, rfl, .inr (.of_setPc fun _ => addrOperand_le _)⟩
  case jpV0 => exact ⟨_, rfl, .inr (.of_setPc fun _ => jpV0Target_le _ _)⟩
  case seImm | sneImm | seReg | sneReg | skp | sknp =>
    exact ⟨_, rfl, .inr (.of_setPc pcOk_skip_le)⟩
  case ldImm | addImm | ldReg | orReg | andReg | xorReg | ldFromDt =>
    exact ⟨_, rfl, .inr (.of_advance (Frame.setV s _ _) id rfl)⟩
  case addReg | sub | shr | subn | shl =>
    exact ⟨_, rfl, .inr (.of_advance (Frame.setVAndFlag s _ _ _ _) id rfl)⟩
  case ldIndex | addIndex | ldFont => exact ⟨_, rfl, .inr (.of_advance (Frame.setI s _) id rfl)⟩
  case rnd =>
    exact ⟨_, rfl, .inr (.of_advance ((Frame.setV s _ _).trans (Frame.countDraw _)) id rfl)⟩
  case ldDt => exact ⟨_, rfl, .inr (.of_advance (Frame.setDt s _) id rfl)⟩
  case ldSt => exact ⟨_, rfl, .inr (.of_advance (Frame.setSt s _) id rfl)⟩
  case ldKey x =>
    exact ⟨_, rfl, .inr ⟨Frame.setRun s _, id, fun k hk => .inl ⟨hk, rfl⟩,
      fun hok => .inl (by have := (pcOk_iff _).1 hok; simp; omega), .inr ⟨x, rfl, rfl⟩⟩⟩
  case drw x y n =>
    exact withData_raises_or_completes rfl
      (fun hn hout => .sprite x y n (Nat.pos_of_ne_zero hn) (by omega))
      fun _ => .of_advance ((Frame.setFb s _).trans (Frame.setV _ vf _)) id rfl
  case bcd x =>
    exact withData_raises_or_completes rfl (fun _ hout => .digits x (by omega))
      fun hin => .of_advance (Frame.writeAll s _ _) (fun hwf => Memory.wf_writeAll _ _ hwf hin) rfl
  case storeRegs x =>
    exact withData_raises_or_completes rfl (fun _ hout => .store x (by omega))
      fun hin => .of_advance (Frame.writeAll s _ _) (fun hwf => Memory.wf_writeAll _ _ hwf hin) rfl
  case loadRegs x =>
    exact withData_raises_or_completes rfl (fun _ hout => .load x (by omega))
      fun _ => .of_advance (Frame.setVs s (by simp [readAll])) (by simp) (by simp)

theorem exec_cases {i : Instr} {s t : State} (h : exec i s = .next t) :
    Raises i s t ∨ Completes i s t := by
  obtain ⟨t', h', hcases⟩ := exec_raises_or_completes i s
  obtain rfl : t' = t := Host.Outcome.next.inj (h'.symm.trans h)
  exact hcases

/-! ## The faults by instruction -/

/-- An instruction that leaves a running machine faulted has taken the fault itself. -/
theorem raises_of_faulted {i : Instr} {s t : State} {rec : FaultRecord} (hrun : s.run = .running)
    (h : exec i s = .next t) (hrec : t.run = .faulted rec) :
    ∃ cause info, CanRaise s i cause ∧ rec = ⟨cause, info, s.pc, encode i⟩ ∧
      t = s.setRun (.faulted rec) := by
  obtain ⟨cause, info, hcan, ht⟩ | hdone := exec_cases h
  · have hrun' : t.run = .faulted ⟨cause, info, s.pc, encode i⟩ := by rw [ht]; rfl
    obtain rfl := RunState.faulted.inj (hrec.symm.trans hrun')
    exact ⟨cause, info, hcan, rfl, ht⟩
  · obtain hkept | ⟨x, hwait, -⟩ := hdone.run
    · rw [hkept, hrun] at hrec; cases hrec
    · rw [hwait] at hrec; cases hrec

/-- Settles O14: the faults open to an instruction are those of `CanRaise`. -/
theorem faultsByInstruction : Obligations.FaultsByInstruction := by
  intro i s t rec hrun h hrec
  obtain ⟨cause, info, hcan, rfl, -⟩ := raises_of_faulted hrun h hrec
  cases hcan with
  | full nnn hfull => exact .inl ⟨rfl, hfull, nnn, rfl⟩
  | empty hempty => exact .inr (.inl ⟨rfl, hempty, rfl⟩)
  | sprite x y n hn hout => exact .inr (.inr ⟨rfl, .inl ⟨x, y, n, rfl, hn, hout⟩⟩)
  | digits x hout => exact .inr (.inr ⟨rfl, .inr (.inl ⟨x, rfl, hout⟩)⟩)
  | store x hout => exact .inr (.inr ⟨rfl, .inr (.inr (.inl ⟨x, rfl, hout⟩))⟩)
  | load x hout => exact .inr (.inr ⟨rfl, .inr (.inr (.inr ⟨x, rfl, hout⟩))⟩)

end Sys2Proof.Machine
end

section
/-! SUPPORT. Who writes what (spec/10_state.md R21, R31; spec/20_memory.md R51): the instructions that
name a part among those they write. -/

namespace Sys2Proof
open Machine

theorem Instr.writes_index {i : Instr} (h : Part.index ∈ i.writtenParts) :
    (∃ nnn, i = .ldIndex nnn) ∨ (∃ x, i = .addIndex x) ∨ ∃ x, i = .ldFont x := by
  cases i <;> simp [writtenParts] at h ⊢

theorem Instr.writes_stack {i : Instr} (h : Part.stack ∈ i.writtenParts) :
    i = .ret ∨ ∃ nnn, i = .call nnn := by
  cases i <;> simp [writtenParts] at h ⊢

theorem Instr.writes_delay {i : Instr} (h : Part.delay ∈ i.writtenParts) : ∃ x, i = .ldDt x := by
  cases i <;> simp [writtenParts] at h ⊢

theorem Instr.writes_sound {i : Instr} (h : Part.sound ∈ i.writtenParts) : ∃ x, i = .ldSt x := by
  cases i <;> simp [writtenParts] at h ⊢

theorem Instr.writes_screen {i : Instr} (h : Part.screen ∈ i.writtenParts) :
    i = .cls ∨ ∃ x y n, i = .drw x y n := by
  cases i <;> simp [writtenParts] at h ⊢

theorem Instr.writes_no_key (i : Instr) : Part.keys ∉ i.writtenParts := by
  cases i <;> simp [writtenParts]

theorem Instr.writes_run {i : Instr} (h : Part.run ∈ i.writtenParts) : ∃ x, i = .ldKey x := by
  cases i <;> simp [writtenParts] at h ⊢

theorem Instr.writes_draws {i : Instr} (h : Part.draws ∈ i.writtenParts) :
    ∃ x nn, i = .rnd x nn := by
  cases i <;> simp [writtenParts] at h ⊢

theorem Instr.writes_byte {i : Instr} {s : State} {a : Nat} (h : a ∈ i.writtenBytes s) :
    (∃ x, i = .bcd x) ∨ ∃ x, i = .storeRegs x := by
  cases i
  case bcd x => exact .inl ⟨x, rfl⟩
  case storeRegs x => exact .inr ⟨x, rfl⟩
  all_goals exact absurd h List.not_mem_nil

end Sys2Proof

namespace Sys2Proof.Machine

/-- A return leaves every entry of the stack as it is, whether it pops or faults. -/
theorem exec_ret_stack {s t : State} (h : exec .ret s = .next t) : t.stack = s.stack := by
  cases hpop : s.pop with
  | none =>
    rw [exec_ret_of_pop_none hpop] at h
    obtain rfl := Host.Outcome.next.inj h
    rfl
  | some top =>
    obtain ⟨target, s'⟩ := top
    rw [exec_ret_of_pop_some hpop] at h
    obtain rfl := Host.Outcome.next.inj h
    obtain ⟨_, _, rfl⟩ := State.pop_eq_some hpop
    rfl

/-- Settles O54: an instruction that takes a fault changes `run` alone, and one that completes has the
frame of the parts it names. -/
theorem onlyNamedInstructionsWriteEachPart : Obligations.OnlyNamedInstructionsWriteEachPart := by
  intro i s t h
  obtain ⟨cause, info, -, rfl⟩ | hdone := exec_cases h
  · exact ⟨rfl, rfl, rfl, rfl, by simp⟩
  · have hframe := hdone.frame
    refine ⟨hframe.keys i.writes_no_key, hframe.agenda, hframe.turns, hframe.loadError,
      fun hne => Instr.writes_index (not_imp_comm.1 hframe.index hne), ?stack,
      fun hne => Instr.writes_stack (by_contra fun hs => hne (hframe.stack hs).1),
      fun hne => Instr.writes_delay (not_imp_comm.1 hframe.delay hne),
      fun hne => Instr.writes_sound (not_imp_comm.1 hframe.sound hne),
      fun hne => Instr.writes_screen (not_imp_comm.1 hframe.screen hne),
      fun hne => Instr.writes_draws (not_imp_comm.1 hframe.draws hne),
      fun ⟨a, hne⟩ => Instr.writes_byte (not_imp_comm.1 (hframe.mem a) hne),
      fun hne => .inl (Instr.writes_run (not_imp_comm.1 hframe.run hne))⟩
    case stack =>
      intro hne
      obtain rfl | hcall := Instr.writes_stack (by_contra fun hs => hne (hframe.stack hs).2)
      · exact absurd (exec_ret_stack h) hne
      · exact hcall

/-- Settles O55: an instruction that changes VF completes and has VF among the registers it names. -/
theorem onlySixInstructionsWriteTheFlag : Obligations.OnlySixInstructionsWriteTheFlag := by
  intro i s t h hne
  obtain ⟨cause, info, -, rfl⟩ | hdone := exec_cases h
  · exact absurd rfl hne
  · have hvf : vf ∈ i.writtenRegs := not_imp_comm.1 (hdone.frame.regs vf) hne
    cases i
    case loadRegs x =>
      have hle : vf ≤ x := by simpa [Instr.writtenRegs] using hvf
      obtain rfl : x = vf := le_antisymm (Fin.le_last x) hle
      simp
    all_goals simp [Instr.writtenRegs] at hvf ⊢
    all_goals exact hvf.symm

end Sys2Proof.Machine
end

section
/-! SUPPORT. The engine's step and the step of the machine (spec/40_execution_step.md R90 to R100): the
cases of each, and what follows for every step. -/

namespace Sys2Proof.Machine
open Sys2Proof.Config

/-! ## The engine's step, case by case -/

section Engine
variable {s t : State}

theorem engineStep_of_held (h : s.run ≠ .running) : engineStep s = .next s := by
  unfold engineStep
  split
  · next hrun => exact absurd hrun h
  · rfl
  · rfl

theorem engineStep_of_pc_invalid (hrun : s.run = .running) (hpc : pcOk s.pc = false) :
    engineStep s = raiseFault .pcInvalid s.pc 0 s := by
  simp [engineStep, runningStep, hrun, hpc]

theorem engineStep_of_invalid {e : Reject} (hrun : s.run = .running) (hpc : pcOk s.pc = true)
    (hdec : decode s.fetchWord = .error e) :
    engineStep s = raiseFault .invalidInstruction s.fetchWord s.fetchWord s := by
  simp [engineStep, runningStep, hrun, hpc, hdec]

/-- The four ways a `Step` can go (R92, R93): held, no fetch, no instruction, or the instruction. -/
theorem engineStep_cases (h : engineStep s = .next t) :
    (s.run ≠ .running ∧ t = s) ∨
    (s.run = .running ∧ pcOk s.pc = false ∧
      t = s.setRun (.faulted ⟨.pcInvalid, s.pc, s.pc, 0⟩)) ∨
    (s.run = .running ∧ pcOk s.pc = true ∧ ∃ e, decode s.fetchWord = .error e ∧
      t = s.setRun (.faulted ⟨.invalidInstruction, s.fetchWord, s.pc, s.fetchWord⟩)) ∨
    (s.run = .running ∧ pcOk s.pc = true ∧ ∃ i, decode s.fetchWord = .ok i ∧
      exec i s = .next t) := by
  by_cases hrun : s.run = .running
  · cases hpc : pcOk s.pc with
    | false =>
      rw [engineStep_of_pc_invalid hrun hpc] at h
      exact .inr (.inl ⟨hrun, rfl, (Host.Outcome.next.inj h).symm⟩)
    | true =>
      cases hdec : decode s.fetchWord with
      | error e =>
        rw [engineStep_of_invalid hrun hpc hdec] at h
        exact .inr (.inr (.inl ⟨hrun, rfl, e, rfl, (Host.Outcome.next.inj h).symm⟩))
      | ok i =>
        rw [engineStep_of_decode hrun hpc hdec] at h
        exact .inr (.inr (.inr ⟨hrun, rfl, i, rfl, h⟩))
  · rw [engineStep_of_held hrun] at h
    exact .inl ⟨hrun, (Host.Outcome.next.inj h).symm⟩

theorem engineStep_answers (s : State) : ∃ t, engineStep s = .next t := by
  by_cases hrun : s.run = .running
  · cases hpc : pcOk s.pc with
    | false => exact ⟨_, engineStep_of_pc_invalid hrun hpc⟩
    | true =>
      cases hdec : decode s.fetchWord with
      | error e => exact ⟨_, engineStep_of_invalid hrun hpc hdec⟩
      | ok i =>
        obtain ⟨t, ht, -⟩ := exec_raises_or_completes i s
        exact ⟨t, (engineStep_of_decode hrun hpc hdec).trans ht⟩
  · exact ⟨s, engineStep_of_held hrun⟩

end Engine

/-- The word of the two bytes at `pc` is the word fetched. -/
theorem eq_fetchWord {s : State} {w : Word}
    (hw : w.toNat = (s.mem.read s.pc.toNat).toNat * 256 + (s.mem.read (s.pc.toNat + 1)).toNat) :
    w = s.fetchWord :=
  BitVec.eq_of_toNat_eq (hw.trans s.fetchWord_toNat.symm)

/-- Settles O9: the step of a held engine is the state as it stands. -/
theorem engineHeldUnlessRunning : Obligations.EngineHeldUnlessRunning := by
  rintro s (⟨r, hrun⟩ | ⟨rec, hrun⟩)
  · exact engineStep_of_held (by rw [hrun]; exact RunState.noConfusion)
  · exact engineStep_of_held (by rw [hrun]; exact RunState.noConfusion)

/-- Settles O8: each check of R93 that fails is the fault it raises, and a word that passes all of them
is run. -/
theorem engineStepInOrder : Obligations.EngineStepInOrder := by
  intro s hrun
  refine ⟨fun hbad => ?bad, fun heven hlow hhigh w hw => ⟨fun i hdec => ?good, fun hinvalid => ?invalid⟩⟩
  case bad =>
    have hpc : pcOk s.pc = false := by
      rw [← Bool.not_eq_true, pcOk_iff]; omega
    rw [engineStep_of_pc_invalid hrun hpc]
    exact raiseFault_takes _ _ _ _
  case good =>
    rw [eq_fetchWord hw] at hdec
    exact engineStep_of_decode hrun ((pcOk_iff _).2 ⟨heven, hlow, hhigh⟩) hdec
  case invalid =>
    rw [eq_fetchWord hw] at hinvalid ⊢
    cases hdec : decode s.fetchWord with
    | ok i => exact absurd hdec (hinvalid i)
    | error e =>
      rw [engineStep_of_invalid hrun ((pcOk_iff _).2 ⟨heven, hlow, hhigh⟩) hdec]
      exact raiseFault_takes _ _ _ _

/-- Settles O13: of the four cases of a `Step` three can leave a running machine faulted, each by
setting `run` to a record of the step's own `pc`; the instruction's opcode is the word it was decoded
from. -/
theorem faultsArePrecise : Obligations.FaultsArePrecise := by
  intro s t rec hrun h hrec
  obtain ⟨hheld, -⟩ | ⟨-, -, rfl⟩ | ⟨-, -, e, -, rfl⟩ | ⟨-, -, i, hdec, hexec⟩ := engineStep_cases h
  · exact absurd hrun hheld
  · obtain rfl := RunState.faulted.inj hrec
    exact ⟨rfl, rfl, fun _ => rfl, fun hne => absurd rfl hne⟩
  · obtain rfl := RunState.faulted.inj hrec
    exact ⟨rfl, rfl, nofun, fun _ => s.fetchWord_toNat⟩
  · obtain ⟨cause, info, hcan, rfl, rfl⟩ := raises_of_faulted hrun hexec hrec
    have hcause : cause ≠ .pcInvalid := by rintro rfl; cases hcan
    refine ⟨rfl, rfl, fun heq => absurd heq hcause, fun _ => ?_⟩
    rw [encode_of_decode hdec]
    exact s.fetchWord_toNat

/-! ## The step of the machine -/

/-- Settles O10: the two ways a step finds its transaction. -/
theorem stepIsTheNextTransaction : Obligations.StepIsTheNextTransaction :=
  ⟨fun _ => step_of_no_agenda, fun _ _ _ => step_of_agenda⟩

/-- Settles O7: the engine's `Step` runs the instruction whatever the record of the order is, and the
step of the machine is that `Step` when it comes next. -/
theorem stepRunsDecodedInstruction : Obligations.StepRunsDecodedInstruction := by
  intro s w i hrun heven hlow hhigh hw hdec
  rw [eq_fetchWord hw] at hdec
  have hpc := (pcOk_iff s.pc).2 ⟨heven, hlow, hhigh⟩
  exact ⟨engineStep_of_decode hrun hpc hdec,
    fun rest hagenda => (step_of_agenda hagenda).trans
      (engineStep_of_decode (s := s.setAgenda rest) hrun hpc hdec),
    fun hagenda => ⟨step_of_no_agenda hagenda,
      engineStep_of_decode (s := s.countTurn) hrun hpc hdec⟩⟩

/-- Settles O56: the jump to itself writes to `pc` the value it has. -/
theorem selfJumpIsAFixedPoint : Obligations.SelfJumpIsAFixedPoint := by
  intro s ⟨hrun, hpc, nnn, hdec, hself⟩
  have target : addrOperand nnn = s.pc :=
    BitVec.eq_of_toNat_eq ((addrOperand_toNat nnn).trans hself)
  have stays (u : State) (hu : u.pc = s.pc) : exec (.jp nnn) u = .next u := by
    show Host.Outcome.next (u.setPc (addrOperand nnn)) = .next u
    rw [target, ← hu]
    rfl
  exact ⟨(engineStep_of_decode hrun hpc hdec).trans (stays s rfl),
    fun rest hagenda => ((step_of_agenda hagenda).trans
      (engineStep_of_decode (s := s.setAgenda rest) hrun hpc hdec)).trans (stays _ rfl)⟩

theorem transact_answers (tr : Transaction) (s : State) : ∃ t, transact tr s = .next t := by
  cases tr
  case engine => exact engineStep_answers s
  all_goals exact ⟨_, rfl⟩

/-- Settles O12: every transaction answers a next state, so the next one does. -/
theorem stepAlwaysAnswersNext : Obligations.StepAlwaysAnswersNext := fun s =>
  transact_answers s.upcoming s.pastUpcoming

/-! ## A word placed where the next fetch is -/

section Placed
variable (s : State) (w : Word)

theorem State.withFetchWord_toNat : s.withFetchWord 16 w.toNat = s.placeWord w := by
  rw [State.withFetchWord, Nat.mod_eq_of_lt w.isLt, BitVec.ofNat_toNat, BitVec.setWidth_eq]

theorem State.placeWord_pc_ok : pcOk (s.placeWord w).pc = true := by
  show pcOk (if pcOk s.pc then s.pc else 0x200) = true
  split
  · assumption
  · decide

theorem State.placeWord_fetchWord : (s.placeWord w).fetchWord = w := by
  have hi : (s.placeWord w).mem.read (s.placeWord w).pc.toNat = w.extractLsb' 8 8 :=
    (Memory.read_write_of_ne _ _ (Nat.succ_ne_self _).symm).trans (Memory.read_write_same _ _ _)
  have lo : (s.placeWord w).mem.read ((s.placeWord w).pc.toNat + 1) = w.extractLsb' 0 8 :=
    Memory.read_write_same _ _ _
  apply BitVec.eq_of_toNat_eq
  rw [State.fetchWord_toNat, hi, lo, BitVec.extractLsb'_toNat, BitVec.extractLsb'_toNat,
    Nat.shiftRight_eq_div_pow, Nat.shiftRight_zero]
  have := w.isLt
  omega

/-- Where `pc` can be fetched from a word is placed at `pc`, and no other byte changes. -/
theorem State.placeWord_read {a : Nat} (hpc : pcOk s.pc = true) (ha : a ≠ s.pc.toNat)
    (ha' : a ≠ s.pc.toNat + 1) : (s.placeWord w).mem.read a = s.mem.read a := by
  simp only [State.placeWord, hpc, if_true]
  rw [Memory.read_write_of_ne _ _ ha', Memory.read_write_of_ne _ _ ha]

end Placed

/-- Settles O11: the placed state runs, its `pc` can be fetched from and the word there is the one
placed. -/
theorem placedWordRunsNext : Obligations.PlacedWordRunsNext := by
  intro s w i hdec
  rw [s.withFetchWord_toNat w]
  have hdec' : decode ((s.placeWord w).setAgenda []).fetchWord = .ok i :=
    (congrArg decode (s.placeWord_fetchWord w)).trans hdec
  refine ⟨(step_of_agenda (tr := .engine) (rest := []) rfl).trans
    (engineStep_of_decode (s := (s.placeWord w).setAgenda []) rfl (s.placeWord_pc_ok w) hdec'),
    fun hrange => ?_⟩
  have hpc := (pcOk_iff s.pc).2 hrange
  exact ⟨if_pos hpc, fun a ha ha' => s.placeWord_read w hpc ha ha'⟩

/-! ## While the engine is held -/

/-- While the engine is held a transaction ends a wait, is an accepted reset, or changes no more than
the timers, the latch and the report of a reset. -/
theorem transact_cases_of_held {tr : Transaction} {s t : State} (hrun : s.run ≠ .running)
    (h : transact tr s = .next t) :
    (∃ r k, s.run = .waitKey r ∧ tr = .setKey k true ∧ s.getKey k = false) ∨
    (∃ rom, tr = .reset rom ∧ rom.length ≤ 3584) ∨
    t = { s with dt := t.dt, st := t.st, key := t.key, loadError := t.loadError } := by
  cases tr with
  | engine =>
    obtain rfl := Host.Outcome.next.inj ((engineStep_of_held hrun).symm.trans h)
    exact .inr (.inr rfl)
  | tick | snapshot | readSound =>
    obtain rfl := Host.Outcome.next.inj h
    exact .inr (.inr rfl)
  | setKey k pressed =>
    obtain ⟨r, hwait, rfl, hup, -⟩ | ⟨-, hlatch⟩ := State.pressKey_cases s k pressed
    · exact .inl ⟨r, k, hwait, rfl, hup⟩
    · obtain rfl : s.setKeyBit k pressed = t := hlatch.symm.trans (Host.Outcome.next.inj h)
      exact .inr (.inr rfl)
  | reset rom =>
    obtain ⟨hfits, -⟩ | ⟨-, hrefused⟩ := State.resetWith_cases rom s
    · exact .inr (.inl ⟨rom, rfl, hfits⟩)
    · obtain rfl := hrefused.symm.trans (Host.Outcome.next.inj h)
      exact .inr (.inr rfl)

/-- The same of a step, which changes the record of the order besides. -/
theorem step_cases_of_held {s t : State} (hrun : s.run ≠ .running) (h : step s = .next t) :
    (∃ r k, s.run = .waitKey r ∧ s.upcoming = .setKey k true ∧ s.getKey k = false) ∨
    (∃ rom, s.upcoming = .reset rom ∧ rom.length ≤ 3584) ∨
    t = { s with
      dt := t.dt, st := t.st, key := t.key, loadError := t.loadError,
      turns := t.turns, agenda := t.agenda } := by
  have hpast := s.pastUpcoming_eq
  generalize s.pastUpcoming.turns = n, s.pastUpcoming.agenda = l at hpast
  have h : transact s.upcoming s.pastUpcoming = .next t := h
  rw [hpast] at h
  obtain hpress | hreset | ht := transact_cases_of_held (by exact hrun) h
  · exact .inl hpress
  · exact .inr (.inl hreset)
  · have hturns : t.turns = n := congrArg State.turns ht
    have hagenda : t.agenda = l := congrArg State.agenda ht
    rw [hturns, hagenda]
    exact .inr (.inr ht)

/-- Settles O52: a faulted engine is held, and there is no wait to end. -/
theorem faultedStateIsFrozen : Obligations.FaultedStateIsFrozen := by
  intro s t rec hfaulted h
  have held : s.run ≠ .running := by rw [hfaulted]; exact RunState.noConfusion
  obtain ⟨r, k, hwait, -⟩ | hcases := step_cases_of_held held h
  · rw [hfaulted] at hwait; cases hwait
  · exact hcases

/-- Settles O53: a waiting engine is held, and what no press and no reset changes leaves `run`, `pc` and
the registers. -/
theorem waitEndsOnlyByPressOrReset : Obligations.WaitEndsOnlyByPressOrReset := by
  intro s t r hwait h
  have held : s.run ≠ .running := by rw [hwait]; exact RunState.noConfusion
  obtain ⟨-, k, -, hpress, hup⟩ | hreset | ht := step_cases_of_held held h
  · exact .inl ⟨k, hpress, hup⟩
  · exact .inr (.inl hreset)
  · rw [ht]
    exact .inr (.inr ⟨hwait, rfl, fun _ => rfl⟩)

end Sys2Proof.Machine
end

section
/-! SUPPORT. The invariant of reachable states (spec/10_state.md R37), kept by every step. -/

namespace Sys2Proof.Machine
open Sys2Proof.Config

/-- Settles O57: nothing is listed in memory, no entry is live, and the machine runs. -/
theorem resetMeetsTheInvariant : Obligations.ResetMeetsTheInvariant where
  memory := State.reset_memory_wf
  entries := fun _ hk => absurd hk (Nat.not_lt_zero _)
  pcBound := by decide
  waiting := fun _ hrun => RunState.noConfusion hrun
  record := fun _ hrun => RunState.noConfusion hrun

/-! ## What the invariant does not see, and the changes of `run` -/

section Changes
variable {s t : State}

/-- The invariant is about memory, the stack, `pc` and `run`. -/
theorem Inv.of_eq (h : Inv s) (hmem : t.mem = s.mem) (hstack : t.stack = s.stack) (hsp : t.sp = s.sp)
    (hpc : t.pc = s.pc) (hrun : t.run = s.run) : Inv t where
  memory := hmem ▸ h.memory
  entries := by rw [hstack, hsp]; exact h.entries
  pcBound := hpc ▸ h.pcBound
  waiting := by rw [hrun, hpc]; exact h.waiting
  record := by rw [hrun, hpc]; exact h.record

/-- A fault whose record is about the present `pc` keeps the invariant. -/
theorem Inv.faulted (h : Inv s) {rec : FaultRecord} (hrec : rec.fpc = s.pc) :
    Inv (s.setRun (.faulted rec)) where
  memory := h.memory
  entries := h.entries
  pcBound := h.pcBound
  waiting := fun _ hrun => RunState.noConfusion hrun
  record := fun _ hrun => RunState.faulted.inj hrun ▸ hrec

/-- An instruction run where it can be fetched from keeps the invariant: the return address it may push
is even and in 0x202 to 0x1000, and a live entry it may go to is at most 0x1000. -/
theorem Inv.of_completes {i : Instr} (h : Inv s) (hrun : s.run = .running)
    (hpc : pcOk s.pc = true) (hdone : Completes i s t) : Inv t where
  memory := hdone.memory h.memory
  entries := by
    intro k hk
    obtain ⟨hlive, heq⟩ | hpushed := hdone.entries k hk
    · rw [heq]; exact h.entries k hlive
    · have hrange := (pcOk_iff s.pc).1 hpc
      rw [hpushed, pcOk_add_two hpc]
      omega
  pcBound := by
    obtain hbound | ⟨k, hlive, heq⟩ := hdone.pc hpc
    · exact hbound
    · have hentry := (h.entries k hlive).2.2
      rw [heq]
      omega
  waiting := by
    intro r hwait
    obtain hkept | ⟨-, -, hpc'⟩ := hdone.run
    · rw [hkept, hrun] at hwait; cases hwait
    · rw [hpc']; exact hpc
  record := by
    intro rec hrec
    obtain hkept | ⟨x, hwait, -⟩ := hdone.run
    · rw [hkept, hrun] at hrec; cases hrec
    · rw [hwait] at hrec; cases hrec

end Changes

/-! ## Every transaction -/

theorem engineStep_keeps_inv {s t : State} (hinv : Inv s) (h : engineStep s = .next t) : Inv t := by
  obtain ⟨-, rfl⟩ | ⟨-, -, rfl⟩ | ⟨-, -, e, -, rfl⟩ | ⟨hrun, hpc, i, -, hexec⟩ := engineStep_cases h
  · exact hinv
  · exact hinv.faulted rfl
  · exact hinv.faulted rfl
  · obtain ⟨cause, info, -, rfl⟩ | hdone := exec_cases hexec
    · exact hinv.faulted rfl
    · exact hinv.of_completes hrun hpc hdone

/-- A press that ends a wait goes on behind the waiting instruction, which can be fetched from. -/
theorem pressKey_keeps_inv {s : State} (hinv : Inv s) (k : KeyIx) (pressed : Bool) :
    Inv (s.pressKey k pressed) := by
  obtain ⟨r, hwait, -, -, hpress⟩ | ⟨-, hlatch⟩ := State.pressKey_cases s k pressed
  · rw [hpress]
    exact {
      memory := hinv.memory
      entries := hinv.entries
      pcBound := pcOk_advance_le (hinv.waiting r hwait)
      waiting := fun _ hrun => RunState.noConfusion hrun
      record := fun _ hrun => RunState.noConfusion hrun }
  · rw [hlatch]
    exact hinv.of_eq rfl rfl rfl rfl rfl

/-- A reset establishes the invariant, but for memory, which the image leaves in its form. -/
theorem resetWith_keeps_inv {s : State} (hinv : Inv s) (rom : Rom) : Inv (s.resetWith rom) := by
  obtain ⟨hfits, haccepted⟩ | ⟨-, hrefused⟩ := State.resetWith_cases rom s
  · rw [haccepted]
    exact { resetMeetsTheInvariant with memory := loadedMemory_wf rom hfits }
  · rw [hrefused]
    exact hinv.of_eq rfl rfl rfl rfl rfl

theorem transact_keeps_inv {tr : Transaction} {s t : State} (hinv : Inv s)
    (h : transact tr s = .next t) : Inv t := by
  cases tr with
  | engine => exact engineStep_keeps_inv hinv h
  | tick => exact Host.Outcome.next.inj h ▸ hinv.of_eq rfl rfl rfl rfl rfl
  | setKey k pressed => exact Host.Outcome.next.inj h ▸ pressKey_keeps_inv hinv k pressed
  | snapshot | readSound => exact Host.Outcome.next.inj h ▸ hinv
  | reset rom => exact Host.Outcome.next.inj h ▸ resetWith_keeps_inv hinv rom

/-- Settles O58: a step is a transaction on a state that differs in the record of the order alone. -/
theorem stepKeepsTheInvariant : Obligations.StepKeepsTheInvariant := by
  intro s t hinv h
  obtain ⟨-, h⟩ | ⟨tr, rest, -, h⟩ := step_cases h
  · exact transact_keeps_inv (s := s.countTurn) (hinv.of_eq rfl rfl rfl rfl rfl) h
  · exact transact_keeps_inv (s := s.setAgenda rest) (hinv.of_eq rfl rfl rfl rfl rfl) h

end Sys2Proof.Machine
end

section
/-! SUPPORT. What cannot be observed: the stack, for an instruction other than CALL and RET, and the
model's record of the order, for every transaction. -/

namespace Sys2Proof.Machine
open Sys2Proof.Config

/-- The state with another stack of the same depth. -/
def State.withStack (s : State) (k : Vector Word 16) : State := { s with stack := k }

/-- The state with another record of the order. -/
def State.withOrder (s : State) (n : Nat) (l : List Transaction) : State :=
  { s with turns := n, agenda := l }

/-- The state with both replaced. -/
def State.withContext (s : State) (k : Vector Word 16) (n : Nat) (l : List Transaction) : State :=
  (s.withStack k).withOrder n l

section Context
variable {s t : State} {i : Instr} (k : Vector Word 16) (n : Nat) (l : List Transaction)

theorem State.withStack_of_kept (h : t = t.withContext s.stack s.turns s.agenda) :
    t.withContext k s.turns s.agenda = t.withStack k := by
  rw [h]; rfl

theorem State.withOrder_of_kept (h : t = t.withContext s.stack s.turns s.agenda) :
    t.withContext s.stack n l = t.withOrder n l := by
  rw [h]; rfl

/-! ## What uses neither the stack nor the record -/

theorem State.setVs_withContext (s : State) (r : Nat) (bs : List Byte) :
    (s.withContext k n l).setVs r bs = (s.setVs r bs).withContext k n l := by
  induction bs generalizing s r with
  | nil => rfl
  | cons b bs ih => exact ih { s with v := s.v.setIfInBounds r b } (r + 1)

theorem withData_withContext {p : MemOorPolicy} {count : Nat} {op : Word}
    {effect effect' : List Nat → State} (h : withData p count op s effect = .next t)
    (heffect : ∀ as, effect' as = (effect as).withContext k n l) :
    withData p count op (s.withContext k n l) effect' = .next (t.withContext k n l) := by
  obtain ⟨as, has, rfl⟩ | ⟨hnone, rfl⟩ := withData_cases h
  · have run : withData p count op (s.withContext k n l) effect' = .next (effect' as).advance :=
      withData_of_some has
    rw [run, heffect]
    rfl
  · exact withData_of_none hnone

/-- An instruction other than CALL and RET does the same whatever the stack and the record hold, and
leaves them. -/
theorem exec_withContext (hcall : ∀ nnn, i ≠ .call nnn) (hret : i ≠ .ret)
    (h : exec i s = .next t) : exec i (s.withContext k n l) = .next (t.withContext k n l) := by
  cases i
  case call nnn => exact absurd rfl (hcall nnn)
  case ret => exact absurd rfl hret
  case drw | bcd | storeRegs => exact withData_withContext k n l h fun _ => rfl
  case loadRegs => exact withData_withContext k n l h fun _ => State.setVs_withContext k n l s _ _
  all_goals
    obtain rfl := Host.Outcome.next.inj h
    rfl

theorem exec_keeps_context (hcall : ∀ nnn, i ≠ .call nnn) (hret : i ≠ .ret)
    (h : exec i s = .next t) : t = t.withContext s.stack s.turns s.agenda :=
  Host.Outcome.next.inj (h.symm.trans (exec_withContext s.stack s.turns s.agenda hcall hret h))

theorem State.pressKey_withContext (s : State) (key : KeyIx) (pressed : Bool) :
    (s.withContext k n l).pressKey key pressed = (s.pressKey key pressed).withContext k n l := by
  obtain ⟨r, hwait, hpressed, hup, hpress⟩ | ⟨hheld, hlatch⟩ := s.pressKey_cases key pressed
  · obtain ⟨r', hwait', -, -, hpress'⟩ | ⟨hheld', -⟩ :=
      (s.withContext k n l).pressKey_cases key pressed
    · obtain rfl := RunState.waitKey.inj (hwait.symm.trans hwait')
      rw [hpress, hpress']
      rfl
    · obtain hrelease | hdown := hheld' r hwait
      · exact absurd (hpressed.symm.trans hrelease) (by decide)
      · exact absurd (hdown.symm.trans hup) (by decide)
  · obtain ⟨r, hwait', hpressed, hup, -⟩ | ⟨-, hlatch'⟩ :=
      (s.withContext k n l).pressKey_cases key pressed
    · obtain hrelease | hdown := hheld r hwait'
      · exact absurd (hpressed.symm.trans hrelease) (by decide)
      · exact absurd (hdown.symm.trans hup) (by decide)
    · rw [hlatch, hlatch']
      rfl

theorem State.pressKey_keeps_context (s : State) (key : KeyIx) (pressed : Bool) :
    s.pressKey key pressed =
      (s.pressKey key pressed).withContext s.stack s.turns s.agenda :=
  s.pressKey_withContext s.stack s.turns s.agenda key pressed

/-! ## The record of the order -/

theorem exec_call_withOrder {nnn : BitVec 12} (h : exec (.call nnn) s = .next t) :
    exec (.call nnn) (s.withOrder n l) = .next (t.withOrder n l) := by
  cases hpush : s.push (s.pc + 2) with
  | none =>
    rw [exec_call_of_push_none hpush] at h
    obtain rfl := Host.Outcome.next.inj h
    have hfull : s.sp.val = 16 := State.push_eq_none.1 hpush
    exact exec_call_of_push_none (s := s.withOrder n l) (State.push_eq_none.2 hfull)
  | some s' =>
    rw [exec_call_of_push_some hpush] at h
    obtain rfl := Host.Outcome.next.inj h
    obtain ⟨hroom, rfl⟩ := State.push_eq_some hpush
    exact exec_call_of_push_some (s := s.withOrder n l) (dif_pos hroom)

theorem exec_ret_withOrder (h : exec .ret s = .next t) :
    exec .ret (s.withOrder n l) = .next (t.withOrder n l) := by
  cases hpop : s.pop with
  | none =>
    rw [exec_ret_of_pop_none hpop] at h
    obtain rfl := Host.Outcome.next.inj h
    have hempty : s.sp.val = 0 := State.pop_eq_none.1 hpop
    exact exec_ret_of_pop_none (s := s.withOrder n l) (State.pop_eq_none.2 hempty)
  | some top =>
    obtain ⟨target, s'⟩ := top
    rw [exec_ret_of_pop_some hpop] at h
    obtain rfl := Host.Outcome.next.inj h
    obtain ⟨hentry, rfl, rfl⟩ := State.pop_eq_some hpop
    exact exec_ret_of_pop_some (s := s.withOrder n l) (dif_pos hentry)

theorem exec_withOrder (h : exec i s = .next t) :
    exec i (s.withOrder n l) = .next (t.withOrder n l) := by
  by_cases hcall : ∃ nnn, i = .call nnn
  · obtain ⟨nnn, rfl⟩ := hcall
    exact exec_call_withOrder n l h
  · by_cases hret : i = .ret
    · subst hret
      exact exec_ret_withOrder n l h
    · have hcall : ∀ nnn, i ≠ .call nnn := fun nnn e => hcall ⟨nnn, e⟩
      rw [← State.withOrder_of_kept n l (exec_keeps_context hcall hret h)]
      exact exec_withContext s.stack n l hcall hret h

theorem engineStep_withOrder (h : engineStep s = .next t) :
    engineStep (s.withOrder n l) = .next (t.withOrder n l) := by
  obtain ⟨hheld, rfl⟩ | ⟨hrun, hpc, rfl⟩ | ⟨hrun, hpc, e, hdec, rfl⟩ | ⟨hrun, hpc, i, hdec, hexec⟩ :=
    engineStep_cases h
  · exact engineStep_of_held hheld
  · exact engineStep_of_pc_invalid hrun hpc
  · exact engineStep_of_invalid (s := s.withOrder n l) hrun hpc hdec
  · exact (engineStep_of_decode (s := s.withOrder n l) hrun hpc hdec).trans
      (exec_withOrder n l hexec)

theorem State.pressKey_withOrder (s : State) (key : KeyIx) (pressed : Bool) :
    (s.withOrder n l).pressKey key pressed = (s.pressKey key pressed).withOrder n l := by
  rw [← State.withOrder_of_kept n l (s.pressKey_keeps_context key pressed)]
  exact s.pressKey_withContext s.stack n l key pressed

theorem State.resetWith_withOrder (s : State) (rom : Rom) :
    (s.withOrder n l).resetWith rom = (s.resetWith rom).withOrder n l := by
  unfold State.resetWith
  split <;> rfl

/-- A transaction does the same whatever the record of the order holds, and leaves it. -/
theorem transact_withOrder {tr : Transaction} (h : transact tr s = .next t) :
    transact tr (s.withOrder n l) = .next (t.withOrder n l) := by
  cases tr with
  | engine => exact engineStep_withOrder n l h
  | tick | snapshot | readSound => exact Host.Outcome.next.inj h ▸ rfl
  | setKey key pressed =>
    exact Host.Outcome.next.inj h ▸ congrArg _ (s.pressKey_withOrder n l key pressed)
  | reset rom => exact Host.Outcome.next.inj h ▸ congrArg _ (s.resetWith_withOrder n l rom)

end Context

end Sys2Proof.Machine
end

section
/-! SUPPORT. Runs (spec/40_execution_step.md R91, R100): a run is its transactions one after the other,
but for the record of the order. -/

namespace Sys2Proof.Machine
open Sys2Proof.Config

/-! ## Transactions one after the other -/

section Lists
variable {s t u : State} {tr : Transaction} {ts : List Transaction}

theorem transactAll_cons (h : transact tr s = .next t) :
    transactAll (tr :: ts) s = transactAll ts t := by
  rw [transactAll, h]

theorem transactAll_answers (ts : List Transaction) (s : State) :
    ∃ t, transactAll ts s = .next t := by
  induction ts generalizing s with
  | nil => exact ⟨s, rfl⟩
  | cons tr ts ih =>
    obtain ⟨u, hu⟩ := transact_answers tr s
    rw [transactAll_cons hu]
    exact ih u

theorem transactAll_withOrder (n : Nat) (l : List Transaction) (h : transactAll ts s = .next t) :
    transactAll ts (s.withOrder n l) = .next (t.withOrder n l) := by
  induction ts generalizing s with
  | nil => exact Host.Outcome.next.inj h ▸ rfl
  | cons tr ts ih =>
    obtain ⟨u, hu⟩ := transact_answers tr s
    rw [transactAll_cons hu] at h
    rw [transactAll_cons (transact_withOrder n l hu)]
    exact ih h

theorem transactAll_keeps_order (h : transactAll ts s = .next t) :
    t = t.withOrder s.turns s.agenda :=
  Host.Outcome.next.inj (h.symm.trans (transactAll_withOrder s.turns s.agenda h))

end Lists

/-! ## The two kinds of run -/

theorem State.withOrder_agenda_nil {s : State} (h : s.agenda = []) : s.withOrder s.turns [] = s := by
  rw [← h]; rfl

/-- With the agenda empty a run is the next transactions of the open order. -/
theorem run_of_no_agenda (k : Nat) {s u : State} (hagenda : s.agenda = [])
    (h : transactAll ((List.range k).map fun j => scheduled (s.turns + j)) s = .next u) :
    Host.Core.run Sys2Proof.core k s = .next (u.withOrder (s.turns + k) []) := by
  induction k generalizing s u with
  | zero =>
    obtain rfl := Host.Outcome.next.inj h
    exact congrArg Host.Outcome.next (State.withOrder_agenda_nil hagenda).symm
  | succ k ih =>
    obtain ⟨t, ht⟩ := transact_answers (scheduled s.turns) s
    have hstep : step s = .next (t.withOrder (s.turns + 1) []) := by
      rw [step_of_no_agenda hagenda, ← hagenda]
      exact transact_withOrder _ _ ht
    have later (j : Nat) : s.turns + (j + 1) = s.turns + 1 + j := by omega
    have orders : ((fun j => scheduled (s.turns + j)) ∘ Nat.succ) =
        fun j => scheduled (s.turns + 1 + j) := funext fun j => congrArg scheduled (later j)
    rw [List.range_succ_eq_map, List.map_cons, List.map_map, Nat.add_zero, transactAll_cons ht,
      orders] at h
    rw [run_succ k hstep, later k]
    exact ih (s := t.withOrder (s.turns + 1) []) (u := u.withOrder (s.turns + 1) []) rfl
      (transactAll_withOrder _ _ h)

/-- A run as long as the agenda is the agenda. -/
theorem run_of_agenda (ts : List Transaction) {s u : State} (hagenda : s.agenda = ts)
    (h : transactAll ts s = .next u) :
    Host.Core.run Sys2Proof.core ts.length s = .next (u.withOrder s.turns []) := by
  induction ts generalizing s u with
  | nil =>
    obtain rfl := Host.Outcome.next.inj h
    exact congrArg Host.Outcome.next (State.withOrder_agenda_nil hagenda).symm
  | cons tr ts ih =>
    obtain ⟨t, ht⟩ := transact_answers tr s
    have hstep : step s = .next (t.withOrder s.turns ts) :=
      (step_of_agenda hagenda).trans (transact_withOrder s.turns ts ht)
    rw [transactAll_cons ht] at h
    rw [List.length_cons, run_succ _ hstep]
    exact ih (s := t.withOrder s.turns ts) (u := u.withOrder s.turns ts) rfl
      (transactAll_withOrder _ _ h)

/-- Settles O60: the run is the transactions one after the other, which keep the record the run
changes. -/
theorem runsFollowTheOpenOrder : Obligations.RunsFollowTheOpenOrder := by
  constructor
  · intro k s hagenda
    obtain ⟨u, hu⟩ := transactAll_answers ((List.range k).map fun j => scheduled (s.turns + j)) s
    have kept : u.agenda = [] := (congrArg State.agenda (transactAll_keeps_order hu)).trans hagenda
    refine ⟨_, u, run_of_no_agenda k hagenda hu, hu, ?_⟩
    rw [← kept]
    rfl
  · intro s
    obtain ⟨u, hu⟩ := transactAll_answers s.agenda s
    have kept : u.turns = s.turns := (congrArg State.turns (transactAll_keeps_order hu) :)
    refine ⟨_, u, run_of_agenda s.agenda rfl hu, hu, ?_⟩
    rw [← kept]
    rfl

/-! ## Ticks in a row -/

/-- Ticks one after the other take each timer down by their number, to a floor of 0 (R220). -/
theorem transactAll_ticks (k : Nat) (s : State) :
    ∃ t, transactAll (List.replicate k .tick) s = .next t ∧ t.dt.toNat = s.dt.toNat - k ∧
      t.st.toNat = s.st.toNat - k ∧ t.run = s.run ∧ t.pc = s.pc := by
  induction k generalizing s with
  | zero => exact ⟨s, rfl, rfl, rfl, rfl, rfl⟩
  | succ k ih =>
    obtain ⟨t, ht, hdt, hst, hrun, hpc⟩ := ih s.tick
    refine ⟨t, ht, ?_, ?_, hrun, hpc⟩
    · rw [hdt, show s.tick.dt = countDown s.dt from rfl, countDown_toNat]; omega
    · rw [hst, show s.tick.st = countDown s.st from rfl, countDown_toNat]; omega

/-- Settles O47: the agenda of ticks is run to its end. -/
theorem ticksReachZero : Obligations.TicksReachZero := by
  intro k s hagenda
  obtain ⟨u, hu, hdt, hst, hrun, hpc⟩ := transactAll_ticks k s
  have hrun' := run_of_agenda _ hagenda hu
  rw [List.length_replicate] at hrun'
  exact ⟨_, hrun', hdt, hst, rfl, hrun, hpc⟩

end Sys2Proof.Machine
end

section
/-! SUPPORT. Dead entries of the return stack (spec/10_state.md R25; decision D21): two states that differ
in them step to states that differ in no more. -/

namespace Sys2Proof.Machine
open Sys2Proof.Config

section Dead
variable {s t : State} {k : Vector Word 16}

/-- Another stack with the same live entries. -/
theorem SameButDeadEntries.of_withStack
    (hlive : ∀ j : Fin 16, j.val < s.sp.val → k.get j = s.stack.get j) :
    SameButDeadEntries s (s.withStack k) := ⟨rfl, hlive, rfl⟩

theorem SameButDeadEntries.refl (s : State) : SameButDeadEntries s s := ⟨rfl, fun _ _ => rfl, rfl⟩

section Instructions
variable (hlive : ∀ j : Fin 16, j.val < s.sp.val → k.get j = s.stack.get j)
include hlive

/-- A call writes the first dead entry, which becomes live, with the same address in both states. -/
theorem exec_call_sameButDead {nnn : BitVec 12} (h : exec (.call nnn) s = .next t) :
    ∃ t', exec (.call nnn) (s.withStack k) = .next t' ∧ SameButDeadEntries t t' := by
  cases hpush : s.push (s.pc + 2) with
  | none =>
    rw [exec_call_of_push_none hpush] at h
    obtain rfl := Host.Outcome.next.inj h
    have hfull : s.sp.val = 16 := State.push_eq_none.1 hpush
    exact ⟨_, exec_call_of_push_none (s := s.withStack k) (State.push_eq_none.2 hfull),
      .of_withStack hlive⟩
  | some s' =>
    rw [exec_call_of_push_some hpush] at h
    obtain rfl := Host.Outcome.next.inj h
    obtain ⟨hroom, rfl⟩ := State.push_eq_some hpush
    refine ⟨_, exec_call_of_push_some (s := s.withStack k) (dif_pos hroom),
      .of_withStack fun j hj => ?_⟩
    have hj : j.val < s.sp.val + 1 := hj
    show (k.set s.sp.val (s.pc + 2)).get j = (s.stack.set s.sp.val (s.pc + 2)).get j
    rw [Vector.get_eq_getElem, Vector.get_eq_getElem, Vector.getElem_set, Vector.getElem_set]
    split
    · rfl
    · exact hlive j (by omega)

/-- A return goes to the top live entry, the same in both states. -/
theorem exec_ret_sameButDead (h : exec .ret s = .next t) :
    ∃ t', exec .ret (s.withStack k) = .next t' ∧ SameButDeadEntries t t' := by
  cases hpop : s.pop with
  | none =>
    rw [exec_ret_of_pop_none hpop] at h
    obtain rfl := Host.Outcome.next.inj h
    have hempty : s.sp.val = 0 := State.pop_eq_none.1 hpop
    exact ⟨_, exec_ret_of_pop_none (s := s.withStack k) (State.pop_eq_none.2 hempty),
      .of_withStack hlive⟩
  | some top =>
    obtain ⟨target, s'⟩ := top
    rw [exec_ret_of_pop_some hpop] at h
    obtain rfl := Host.Outcome.next.inj h
    obtain ⟨hentry, rfl, rfl⟩ := State.pop_eq_some hpop
    have htop : k[s.sp.val - 1] = s.stack[s.sp.val - 1] :=
      hlive ⟨s.sp.val - 1, by omega⟩ (Nat.sub_lt hentry Nat.one_pos)
    refine ⟨_, exec_ret_of_pop_some (s := s.withStack k) (dif_pos hentry), ?_⟩
    rw [← htop]
    exact .of_withStack fun j hj => hlive j (Nat.lt_of_lt_of_le hj (Nat.sub_le _ _))

theorem exec_sameButDead {i : Instr} (h : exec i s = .next t) :
    ∃ t', exec i (s.withStack k) = .next t' ∧ SameButDeadEntries t t' := by
  by_cases hcall : ∃ nnn, i = .call nnn
  · obtain ⟨nnn, rfl⟩ := hcall
    exact exec_call_sameButDead hlive h
  · by_cases hret : i = .ret
    · subst hret
      exact exec_ret_sameButDead hlive h
    · have not_call : ∀ nnn, i ≠ .call nnn := fun nnn e => hcall ⟨nnn, e⟩
      have kept := exec_keeps_context not_call hret h
      have hstack : t.stack = s.stack := (congrArg State.stack kept :)
      have hsp : t.sp = s.sp := by
        obtain ⟨-, -, -, -, -, -, hwrites, -⟩ := onlyNamedInstructionsWriteEachPart i s t h
        exact by_contra fun hne => (hwrites hne).elim hret hcall
      have hexec := exec_withContext k s.turns s.agenda not_call hret h
      rw [State.withStack_of_kept k kept] at hexec
      exact ⟨_, hexec, .of_withStack (by rw [hsp, hstack]; exact hlive)⟩

theorem engineStep_sameButDead (h : engineStep s = .next t) :
    ∃ t', engineStep (s.withStack k) = .next t' ∧ SameButDeadEntries t t' := by
  obtain ⟨hheld, rfl⟩ | ⟨hrun, hpc, rfl⟩ | ⟨hrun, hpc, e, hdec, rfl⟩ | ⟨hrun, hpc, i, hdec, hexec⟩ :=
    engineStep_cases h
  · exact ⟨_, engineStep_of_held hheld, .of_withStack hlive⟩
  · exact ⟨_, engineStep_of_pc_invalid (s := s.withStack k) hrun hpc, .of_withStack hlive⟩
  · exact ⟨_, engineStep_of_invalid (s := s.withStack k) hrun hpc hdec, .of_withStack hlive⟩
  · obtain ⟨t', ht', hsame⟩ := exec_sameButDead hlive hexec
    exact ⟨t', (engineStep_of_decode (s := s.withStack k) hrun hpc hdec).trans ht', hsame⟩

/-- No key event sees the stack. -/
theorem pressKey_sameButDead (key : KeyIx) (pressed : Bool) :
    SameButDeadEntries (s.pressKey key pressed) ((s.withStack k).pressKey key pressed) := by
  have kept := s.pressKey_keeps_context key pressed
  have hstack : (s.pressKey key pressed).stack = s.stack := (congrArg State.stack kept :)
  have hsp : (s.pressKey key pressed).sp = s.sp := by
    obtain ⟨_, _, _, _, hpress⟩ | ⟨_, hlatch⟩ := s.pressKey_cases key pressed
    · rw [hpress]; rfl
    · rw [hlatch]; rfl
  have withStack_eq : (s.withStack k).pressKey key pressed = _ :=
    s.pressKey_withContext k s.turns s.agenda key pressed
  rw [withStack_eq, State.withStack_of_kept k kept]
  exact .of_withStack (by rw [hsp, hstack]; exact hlive)

/-- An accepted reset gives one state; a refused one keeps the stack. -/
theorem resetWith_sameButDead (rom : Rom) :
    SameButDeadEntries (s.resetWith rom) ((s.withStack k).resetWith rom) := by
  unfold State.resetWith
  split
  · exact .refl _
  · exact .of_withStack hlive

theorem transact_sameButDead {tr : Transaction} (h : transact tr s = .next t) :
    ∃ t', transact tr (s.withStack k) = .next t' ∧ SameButDeadEntries t t' := by
  cases tr with
  | engine => exact engineStep_sameButDead hlive h
  | tick | snapshot | readSound =>
    obtain rfl := Host.Outcome.next.inj h
    exact ⟨_, rfl, .of_withStack hlive⟩
  | setKey key pressed =>
    obtain rfl := Host.Outcome.next.inj h
    exact ⟨_, rfl, pressKey_sameButDead hlive key pressed⟩
  | reset rom =>
    obtain rfl := Host.Outcome.next.inj h
    exact ⟨_, rfl, resetWith_sameButDead hlive rom⟩

end Instructions
end Dead

/-- Settles O59: the two states have the same transaction next, and no transaction tells them apart. -/
theorem deadStackEntriesAreUnobservable : Obligations.DeadStackEntriesAreUnobservable := by
  intro s s' t hsame h
  obtain ⟨-, hlive, hrest⟩ := hsame
  have hs' : s' = s.withStack s'.stack := hrest
  generalize s'.stack = k at hlive hs'
  subst hs'
  obtain ⟨hagenda, h⟩ | ⟨tr, rest, hagenda, h⟩ := step_cases h
  · rw [step_of_no_agenda (s := s.withStack k) hagenda]
    exact transact_sameButDead (s := s.countTurn) hlive h
  · rw [step_of_agenda (s := s.withStack k) hagenda]
    exact transact_sameButDead (s := s.setAgenda rest) hlive h

end Sys2Proof.Machine
end
